-- ==== Sys2Proof/Word.lean ====
section
/-! DEFINITION. The fixed-width words of the encoder (spec/00_scope.md R8, R10, R12). -/

namespace Sys2Proof

/-- The encoded instruction: WORD = 32 bits (R8). -/
abbrev Word := BitVec 32

/-- A `Char` of the spec: an 8-bit value (R12). -/
abbrev Byte := BitVec 8

/-- A `Text`: a finite sequence of `Char`, possibly empty, compared byte for byte (R12).
A line and a token are texts. -/
abbrev Text := List Byte

/-- A register index: REG_W = 5 bits (R8). -/
abbrev RegIndex := BitVec 5

end Sys2Proof
end

