-- ==== Sys2Proof/Syntax.lean ====
section
/-! DEFINITION. The syntax of the encoder: formats, descriptors, error kinds, results and the
37 instructions (spec/00_scope.md R3, R15; spec/10_state.md R22, R23, R31). -/

namespace Sys2Proof

/-- The format tag: one of the six formats (R8 NFMT, R15, R70). -/
inductive Format where
  | R | I | S | B | U | J
deriving DecidableEq, Repr

/-- A format tag together with exactly the function fields that the format carries. R23: the
`(funct3, funct7)` presence pattern is determined by the format, and inside format I "funct7 present"
selects the shift-immediate path. Holding the fields this way, a descriptor that breaks R23's pattern
cannot be written (DEDUCED, log entry 4). -/
inductive Layout where
  | R (funct3 : BitVec 3) (funct7 : BitVec 7)
  | I (funct3 : BitVec 3)
  | shift (funct3 : BitVec 3) (funct7 : BitVec 7)
  | S (funct3 : BitVec 3)
  | B (funct3 : BitVec 3)
  | U
  | J
deriving DecidableEq, Repr

/-- One row of ITAB without its key: opcode, funct3 or absent, funct7 or absent, format (R15, R22). -/
structure Descriptor where
  opcode : BitVec 7
  layout : Layout
deriving DecidableEq, Repr

/-- The four error kinds; the set is closed (R250). -/
inductive ErrorKind where
  | unknownMnemonic
  | malformedOperands
  | unknownRegister
  | immediateOutOfRange
deriving DecidableEq, Repr

/-- The result of an encode operation: a word, or one of the four errors and then no word (R31). -/
inductive Result where
  | ok (word : Word)
  | err (kind : ErrorKind)
deriving DecidableEq, Repr

/-- The instructions: the 37 mnemonics of R3, one constructor per row of spec/opcode_table.json, in the
table's order. The level of the spec is the text line in and the word out (R17), and the semantics of a
mnemonic is the function from its operand text to the word or error; so each constructor carries the
operand tokens of the line, in order, exactly as they stand in the text (R120 `ops`; DESIGN CHOICE,
log entry 5). -/
inductive Instr where
  | add (ops : List Text)
  | sub (ops : List Text)
  | sll (ops : List Text)
  | slt (ops : List Text)
  | sltu (ops : List Text)
  | xor (ops : List Text)
  | srl (ops : List Text)
  | sra (ops : List Text)
  | or (ops : List Text)
  | and (ops : List Text)
  | addi (ops : List Text)
  | slti (ops : List Text)
  | sltiu (ops : List Text)
  | xori (ops : List Text)
  | ori (ops : List Text)
  | andi (ops : List Text)
  | slli (ops : List Text)
  | srli (ops : List Text)
  | srai (ops : List Text)
  | jalr (ops : List Text)
  | lb (ops : List Text)
  | lh (ops : List Text)
  | lw (ops : List Text)
  | lbu (ops : List Text)
  | lhu (ops : List Text)
  | beq (ops : List Text)
  | bne (ops : List Text)
  | blt (ops : List Text)
  | bge (ops : List Text)
  | bltu (ops : List Text)
  | bgeu (ops : List Text)
  | jal (ops : List Text)
  | sb (ops : List Text)
  | sh (ops : List Text)
  | sw (ops : List Text)
  | lui (ops : List Text)
  | auipc (ops : List Text)
deriving DecidableEq, Repr

end Sys2Proof
end

