-- ==== Sys2Proof/Machine/Text.lean ====
section
/-! DEFINITION. Texts: the characters the grammar names, whitespace and tokens, integer literals, and
the canonical spelling of numbers and register names (spec/00_scope.md R9, R12;
spec/30_encoding.md R100, R104; spec/40_encode_pipeline.md R121; spec/10_state.md R24). -/

namespace Sys2Proof.Machine

/-- The bytes of an ASCII string. -/
def ascii (cs : List Char) : Text := cs.map fun c => BitVec.ofNat 8 c.toNat

/-- `','` (R12). -/
def comma : Byte := 0x2C#8

/-- `'('` (R12). -/
def lparen : Byte := 0x28#8

/-- `')'` (R12). -/
def rparen : Byte := 0x29#8

/-- `'-'` (R12). -/
def minus : Byte := 0x2D#8

/-- The one space of the canonical form (R100). -/
def space : Byte := 0x20#8

/-- `'x'`, the first character of every register name (R24). -/
def letterX : Byte := 0x78#8

/-- WS: HT, LF, VT, FF, CR and space (R9, R121, D2). -/
def whitespace : List Byte := [0x09#8, 0x0A#8, 0x0B#8, 0x0C#8, 0x0D#8, 0x20#8]

def isWs (c : Byte) : Bool := whitespace.contains c

/-- `split_ws` (R121): the maximal runs of characters that are not in WS, in order. -/
def splitWs : Text → List Text
  | [] => []
  | c :: cs =>
    if isWs c then splitWs cs
    else match cs with
      | [] => [[c]]
      | d :: _ =>
        if isWs d then [c] :: splitWs cs
        else match splitWs cs with
          | [] => [[c]]
          | t :: ts => (c :: t) :: ts

/-- The decimal digits `'0'`..`'9'` are 0x30..0x39 (R12). -/
def isDigit (c : Byte) : Bool := decide (0x30 ≤ c.toNat) && decide (c.toNat ≤ 0x39)

/-- The value of a digit. -/
def digitValue (c : Byte) : Nat := c.toNat - 0x30

/-- The decimal value of `acc` followed by the digits of a text; none where a character is no digit. -/
def readDigits (acc : Nat) : Text → Option Nat
  | [] => some acc
  | c :: cs => if isDigit c then readDigits (acc * 10 + digitValue c) cs else none

/-- One or more decimal digits and nothing else (R104). -/
def parseNat : Text → Option Nat
  | [] => none
  | c :: cs => readDigits 0 (c :: cs)

/-- `parse_int` (R104, D7): an optional single `'-'` and then one or more decimal digits, of any
length; none is the rule's `Malformed`. -/
def parseInt : Text → Option Int
  | [] => none
  | c :: cs =>
    if c = minus then (parseNat cs).map fun n : Nat => -(n : Int)
    else (parseNat (c :: cs)).map fun n : Nat => (n : Int)

/-- The character of a digit value below 10. -/
def digitChar (n : Nat) : Byte := BitVec.ofNat 8 (0x30 + n)

/-- The decimal digits of `n` in front of `acc`; `fuel` bounds the number of digits. -/
def natTextAux : Nat → Nat → Text → Text
  | 0, _, acc => acc
  | fuel + 1, n, acc =>
    if n < 10 then digitChar n :: acc else natTextAux fuel (n / 10) (digitChar (n % 10) :: acc)

/-- The decimal numeral of a number, with no leading zero and no sign (R24, R100). -/
def natText (n : Nat) : Text := natTextAux (n + 1) n []

/-- The canonical decimal numeral of an integer (R100): `"0"`, or an optional `'-'`, a digit
`'1'`..`'9'` and any digits. -/
def intText (v : Int) : Text := if v < 0 then minus :: natText v.natAbs else natText v.natAbs

/-- The name of a register: `'x'` and the decimal numeral of its index (R24). -/
def regName (r : RegIndex) : Text := letterX :: natText r.toNat

/-- An operand token that is not the last: a text and its one comma (R101, R126). -/
def sepToken (t : Text) : Text := t ++ [comma]

/-- The last operand token of format S: offset text, then the base text in parentheses (R128). -/
def storeToken (offset base : Text) : Text := offset ++ lparen :: base ++ [rparen]

end Sys2Proof.Machine
end

