-- ==== Sys2Proof/WellFormed.lean ====
section
/-! DEFINITION. Well-formed instructions: the CANONICAL FORM of spec/30_encoding.md R100 with the operand
order of R102 and the immediate in the range of R79. It is written from the grammar alone and calls no
check of the machine. The encoder accepts more (leading zeros and `-0`, R104); what it does there is in
the meanings (DESIGN CHOICE, log entry 16), which take any operand tokens at all. -/

namespace Sys2Proof

open Machine

/-- A register text: one of the 32 names (R24). -/
def isRegisterName (t : Text) : Bool :=
  (List.range 32).any fun n => t == regName (BitVec.ofNat 5 n)

/-- A register text and its one comma (R100). -/
def isRegisterSep (t : Text) : Bool :=
  (List.range 32).any fun n => t == sepToken (regName (BitVec.ofNat 5 n))

/-- A digit `'1'`..`'9'` and then any digits (R100). -/
def isPositiveNumeral : Text → Bool
  | [] => false
  | c :: cs => decide (0x31 ≤ c.toNat) && decide (c.toNat ≤ 0x39) && cs.all isDigit

/-- A canonical decimal numeral (R100): `"0"`, or an optional `'-'` and a positive numeral. -/
def isCanonicalNumeral : Text → Bool
  | [] => false
  | c :: cs =>
    if c = minus then isPositiveNumeral cs
    else (c :: cs == [0x30#8]) || isPositiveNumeral (c :: cs)

/-- A canonical numeral whose value lies between the bounds, both inclusive (R79). -/
def isImmediate (lo hi : Int) (t : Text) : Bool :=
  isCanonicalNumeral t &&
    match parseInt t with
    | none => false
    | some v => decide (lo ≤ v) && decide (v ≤ hi)

/-- A canonical offset, `'('`, a register name, `')'` and nothing else (R100, format S). -/
def isOffsetBase (lo hi : Int) (t : Text) : Bool :=
  isImmediate lo hi (t.takeWhile (· != lparen)) &&
    (List.range 32).any fun n =>
      t == storeToken (t.takeWhile (· != lparen)) (regName (BitVec.ofNat 5 n))

/-- Three registers (R102 format R). -/
def wellFormedR : List Text → Bool
  | [t₀, t₁, t₂] => isRegisterSep t₀ && isRegisterSep t₁ && isRegisterName t₂
  | _ => false

/-- Two registers and an immediate (R102 formats I and B). -/
def wellFormedRegRegImm (lo hi : Int) : List Text → Bool
  | [t₀, t₁, t₂] => isRegisterSep t₀ && isRegisterSep t₁ && isImmediate lo hi t₂
  | _ => false

/-- A register and an immediate (R102 formats J and U). -/
def wellFormedRegImm (lo hi : Int) : List Text → Bool
  | [t₀, t₁] => isRegisterSep t₀ && isImmediate lo hi t₁
  | _ => false

/-- A register and `imm(reg)` (R102 format S). -/
def wellFormedS : List Text → Bool
  | [t₀, t₁] => isRegisterSep t₀ && isOffsetBase (-2048) 2047 t₁
  | _ => false

/-- The bounds of R79: a signed 12-bit number. -/
def wellFormedI (ops : List Text) : Bool := wellFormedRegRegImm (-2048) 2047 ops

/-- The bounds of R79: a 5-bit shift amount (D8). -/
def wellFormedShift (ops : List Text) : Bool := wellFormedRegRegImm 0 31 ops

/-- The bounds of R79: a signed 13-bit byte offset. -/
def wellFormedB (ops : List Text) : Bool := wellFormedRegRegImm (-4096) 4095 ops

/-- The bounds of R79: a signed 21-bit byte offset. -/
def wellFormedJ (ops : List Text) : Bool := wellFormedRegImm (-1048576) 1048575 ops

/-- The bounds of R79: a signed 20-bit number (D9). -/
def wellFormedU (ops : List Text) : Bool := wellFormedRegImm (-524288) 524287 ops

/-- The instruction's operand tokens are in canonical form and in range. -/
def Instr.wellFormed : Instr → Bool
  | .add ops | .sub ops | .sll ops | .slt ops | .sltu ops | .xor ops | .srl ops | .sra ops
  | .or ops | .and ops => wellFormedR ops
  | .addi ops | .slti ops | .sltiu ops | .xori ops | .ori ops | .andi ops | .jalr ops | .lb ops
  | .lh ops | .lw ops | .lbu ops | .lhu ops => wellFormedI ops
  | .slli ops | .srli ops | .srai ops => wellFormedShift ops
  | .beq ops | .bne ops | .blt ops | .bge ops | .bltu ops | .bgeu ops => wellFormedB ops
  | .jal ops => wellFormedJ ops
  | .sb ops | .sh ops | .sw ops => wellFormedS ops
  | .lui ops | .auipc ops => wellFormedU ops

/-- The last operand token denotes an even number. -/
def lastIsEven (ops : List Text) : Bool :=
  match ops.getLast? with
  | none => false
  | some t => match parseInt t with
    | none => false
    | some v => v % 2 == 0

/-- The branch or jump offset is even, as the source assumes (R56, R221, R236). Bit 0 of an odd offset
has no place in the word, so only an even one can be read back; the other formats encode their
immediate whole. -/
def Instr.evenOffset : Instr → Bool
  | .beq ops | .bne ops | .blt ops | .bge ops | .bltu ops | .bgeu ops | .jal ops => lastIsEven ops
  | .add _ | .sub _ | .sll _ | .slt _ | .sltu _ | .xor _ | .srl _ | .sra _ | .or _ | .and _
  | .addi _ | .slti _ | .sltiu _ | .xori _ | .ori _ | .andi _ | .slli _ | .srli _ | .srai _
  | .jalr _ | .lb _ | .lh _ | .lw _ | .lbu _ | .lhu _ | .sb _ | .sh _ | .sw _ | .lui _
  | .auipc _ => true

end Sys2Proof
end

