-- ==== Sys2Proof/Decode.lean ====
section
/-! DEFINITION. The two readings of an instruction. The machine's own decoder reads a LINE of text: it
cuts the tokens and finds the mnemonic (spec/40_encode_pipeline.md R121 to R123). The word decoder is
the test oracle of spec/30_encoding.md R86, R88 (the block itself has no decoder, R7; DESIGN CHOICE, log entry 7): it
reads a produced word back as the canonical instruction that produces it. Beside them stand the
encoder that writes the word of a well-formed instruction from the match values of
spec/opcode_table.json by shifting and masking, and the canonical line of an instruction. -/

namespace Sys2Proof

open Machine

/-! The mnemonics. -/

/-- The mnemonic of an instruction: the key of its ITAB row (R3, R22). -/
def Instr.key : Instr → Text
  | .add _ => ascii ['a', 'd', 'd']
  | .sub _ => ascii ['s', 'u', 'b']
  | .sll _ => ascii ['s', 'l', 'l']
  | .slt _ => ascii ['s', 'l', 't']
  | .sltu _ => ascii ['s', 'l', 't', 'u']
  | .xor _ => ascii ['x', 'o', 'r']
  | .srl _ => ascii ['s', 'r', 'l']
  | .sra _ => ascii ['s', 'r', 'a']
  | .or _ => ascii ['o', 'r']
  | .and _ => ascii ['a', 'n', 'd']
  | .addi _ => ascii ['a', 'd', 'd', 'i']
  | .slti _ => ascii ['s', 'l', 't', 'i']
  | .sltiu _ => ascii ['s', 'l', 't', 'i', 'u']
  | .xori _ => ascii ['x', 'o', 'r', 'i']
  | .ori _ => ascii ['o', 'r', 'i']
  | .andi _ => ascii ['a', 'n', 'd', 'i']
  | .slli _ => ascii ['s', 'l', 'l', 'i']
  | .srli _ => ascii ['s', 'r', 'l', 'i']
  | .srai _ => ascii ['s', 'r', 'a', 'i']
  | .jalr _ => ascii ['j', 'a', 'l', 'r']
  | .lb _ => ascii ['l', 'b']
  | .lh _ => ascii ['l', 'h']
  | .lw _ => ascii ['l', 'w']
  | .lbu _ => ascii ['l', 'b', 'u']
  | .lhu _ => ascii ['l', 'h', 'u']
  | .beq _ => ascii ['b', 'e', 'q']
  | .bne _ => ascii ['b', 'n', 'e']
  | .blt _ => ascii ['b', 'l', 't']
  | .bge _ => ascii ['b', 'g', 'e']
  | .bltu _ => ascii ['b', 'l', 't', 'u']
  | .bgeu _ => ascii ['b', 'g', 'e', 'u']
  | .jal _ => ascii ['j', 'a', 'l']
  | .sb _ => ascii ['s', 'b']
  | .sh _ => ascii ['s', 'h']
  | .sw _ => ascii ['s', 'w']
  | .lui _ => ascii ['l', 'u', 'i']
  | .auipc _ => ascii ['a', 'u', 'i', 'p', 'c']

/-- The operand tokens of an instruction (R120 `ops`). -/
def Instr.ops : Instr → List Text
  | .add ops | .sub ops | .sll ops | .slt ops | .sltu ops
  | .xor ops | .srl ops | .sra ops | .or ops | .and ops
  | .addi ops | .slti ops | .sltiu ops | .xori ops | .ori ops
  | .andi ops | .slli ops | .srli ops | .srai ops | .jalr ops
  | .lb ops | .lh ops | .lw ops | .lbu ops | .lhu ops
  | .beq ops | .bne ops | .blt ops | .bge ops | .bltu ops
  | .bgeu ops | .jal ops | .sb ops | .sh ops | .sw ops
  | .lui ops | .auipc ops => ops

/-- The mnemonics of format R (R3). -/
def Instr.namedR : List (Text × (List Text → Instr)) :=
  [ (ascii ['a', 'd', 'd'], .add), (ascii ['s', 'u', 'b'], .sub),
    (ascii ['s', 'l', 'l'], .sll), (ascii ['s', 'l', 't'], .slt),
    (ascii ['s', 'l', 't', 'u'], .sltu), (ascii ['x', 'o', 'r'], .xor),
    (ascii ['s', 'r', 'l'], .srl), (ascii ['s', 'r', 'a'], .sra),
    (ascii ['o', 'r'], .or), (ascii ['a', 'n', 'd'], .and) ]

/-- The mnemonics of format I (R3). -/
def Instr.namedI : List (Text × (List Text → Instr)) :=
  [ (ascii ['a', 'd', 'd', 'i'], .addi), (ascii ['s', 'l', 't', 'i'], .slti),
    (ascii ['s', 'l', 't', 'i', 'u'], .sltiu), (ascii ['x', 'o', 'r', 'i'], .xori),
    (ascii ['o', 'r', 'i'], .ori), (ascii ['a', 'n', 'd', 'i'], .andi),
    (ascii ['s', 'l', 'l', 'i'], .slli), (ascii ['s', 'r', 'l', 'i'], .srli),
    (ascii ['s', 'r', 'a', 'i'], .srai), (ascii ['j', 'a', 'l', 'r'], .jalr),
    (ascii ['l', 'b'], .lb), (ascii ['l', 'h'], .lh),
    (ascii ['l', 'w'], .lw), (ascii ['l', 'b', 'u'], .lbu),
    (ascii ['l', 'h', 'u'], .lhu) ]

/-- The mnemonics of format B (R3). -/
def Instr.namedB : List (Text × (List Text → Instr)) :=
  [ (ascii ['b', 'e', 'q'], .beq), (ascii ['b', 'n', 'e'], .bne),
    (ascii ['b', 'l', 't'], .blt), (ascii ['b', 'g', 'e'], .bge),
    (ascii ['b', 'l', 't', 'u'], .bltu), (ascii ['b', 'g', 'e', 'u'], .bgeu) ]

/-- The mnemonics of format J (R3). -/
def Instr.namedJ : List (Text × (List Text → Instr)) :=
  [ (ascii ['j', 'a', 'l'], .jal) ]

/-- The mnemonics of format S (R3). -/
def Instr.namedS : List (Text × (List Text → Instr)) :=
  [ (ascii ['s', 'b'], .sb), (ascii ['s', 'h'], .sh),
    (ascii ['s', 'w'], .sw) ]

/-- The mnemonics of format U (R3). -/
def Instr.namedU : List (Text × (List Text → Instr)) :=
  [ (ascii ['l', 'u', 'i'], .lui), (ascii ['a', 'u', 'i', 'p', 'c'], .auipc) ]

/-- The 37 mnemonics with the instruction each one names (R3). -/
def Instr.named : List (Text × (List Text → Instr)) :=
  Instr.namedR ++ Instr.namedI ++ Instr.namedB ++ Instr.namedJ ++ Instr.namedS ++ Instr.namedU

/-- The instruction that a mnemonic token names, with its operand tokens; none where the token is no
mnemonic. Matching is exact: no case folding, no stripping of punctuation (R106, R123). -/
def Instr.ofKey (mnemonic : Text) (ops : List Text) : Option Instr :=
  (Instr.named.lookup mnemonic).map fun mk => mk ops

/-! Lines of text. -/

/-- The instruction in a line. Total on every sequence of bytes; the one rejection is by name: a line
with no token (R122), or whose first token is no mnemonic (R123), is `UnknownMnemonic`. -/
def decodeLine (line : Text) : Except ErrorKind Instr :=
  match splitWs line with
  | [] => .error .unknownMnemonic
  | m :: ops =>
    match Instr.ofKey m ops with
    | none => .error .unknownMnemonic
    | some i => .ok i

/-- The line of an instruction in the canonical spacing (R100): the mnemonic, and one space before
every operand token. -/
def Instr.line (i : Instr) : Text := i.key ++ i.ops.flatMap fun t => space :: t

/-! Reading a word back (the test oracle of R86). -/

/-- Which of the layouts R71 to R76 a row of the opcode table uses. -/
inductive Shape where
  | R | I | shift | S | B | U | J
deriving DecidableEq, Repr

/-- Word bits 11:7 (R77). -/
def rdField (w : Word) : RegIndex := w.extractLsb 11 7

/-- Word bits 19:15 (R77). -/
def rs1Field (w : Word) : RegIndex := w.extractLsb 19 15

/-- Word bits 24:20 (R77). -/
def rs2Field (w : Word) : RegIndex := w.extractLsb 24 20

/-- The immediate of a word, read back by R86: the pieces of the layout put together again and
sign-extended (the shift amount: zero-extended). Format R has none. -/
def immediateOf : Shape → Word → Int
  | .R, _ => 0
  | .I, w => (w.extractLsb 31 20).toInt
  | .shift, w => ((w.extractLsb 24 20).toNat : Int)
  | .S, w => (w.extractLsb 31 25 ++ w.extractLsb 11 7).toInt
  | .B, w => (w.extractLsb 31 31 ++ w.extractLsb 7 7 ++ w.extractLsb 30 25 ++ w.extractLsb 11 8
      ++ 0b0#1).toInt
  | .J, w => (w.extractLsb 31 31 ++ w.extractLsb 19 12 ++ w.extractLsb 20 20 ++ w.extractLsb 30 21
      ++ 0b0#1).toInt
  | .U, w => (w.extractLsb 31 12).toInt

/-- The canonical operand tokens that a word's fields stand for, in the order of R102. -/
def operandTokens (shape : Shape) (w : Word) : List Text :=
  match shape with
  | .R => [sepToken (regName (rdField w)), sepToken (regName (rs1Field w)), regName (rs2Field w)]
  | .I | .shift =>
    [sepToken (regName (rdField w)), sepToken (regName (rs1Field w)), intText (immediateOf shape w)]
  | .S =>
    [sepToken (regName (rs2Field w)),
      storeToken (intText (immediateOf shape w)) (regName (rs1Field w))]
  | .B =>
    [sepToken (regName (rs1Field w)), sepToken (regName (rs2Field w)), intText (immediateOf shape w)]
  | .U | .J => [sepToken (regName (rdField w)), intText (immediateOf shape w)]

/-- One row of spec/opcode_table.json: a word is an instance of the row when its bits under `mask` are
`value` (the table's "match", R87). -/
structure WordRow where
  mask : Word
  value : Word
  shape : Shape
  build : List Text → Instr

/-- The word is an instance of the row (R87). -/
def WordRow.selects (r : WordRow) (w : Word) : Bool := w &&& r.mask == r.value

/-- The rows of format R in spec/opcode_table.json. -/
def wordRowsR : List WordRow :=
  [ ⟨0xFE00707F#32, 0x00000033#32, .R, .add⟩,
    ⟨0xFE00707F#32, 0x40000033#32, .R, .sub⟩,
    ⟨0xFE00707F#32, 0x00001033#32, .R, .sll⟩,
    ⟨0xFE00707F#32, 0x00002033#32, .R, .slt⟩,
    ⟨0xFE00707F#32, 0x00003033#32, .R, .sltu⟩,
    ⟨0xFE00707F#32, 0x00004033#32, .R, .xor⟩,
    ⟨0xFE00707F#32, 0x00005033#32, .R, .srl⟩,
    ⟨0xFE00707F#32, 0x40005033#32, .R, .sra⟩,
    ⟨0xFE00707F#32, 0x00006033#32, .R, .or⟩,
    ⟨0xFE00707F#32, 0x00007033#32, .R, .and⟩ ]

/-- The rows of format I in spec/opcode_table.json. -/
def wordRowsI : List WordRow :=
  [ ⟨0x0000707F#32, 0x00000013#32, .I, .addi⟩,
    ⟨0x0000707F#32, 0x00002013#32, .I, .slti⟩,
    ⟨0x0000707F#32, 0x00003013#32, .I, .sltiu⟩,
    ⟨0x0000707F#32, 0x00004013#32, .I, .xori⟩,
    ⟨0x0000707F#32, 0x00006013#32, .I, .ori⟩,
    ⟨0x0000707F#32, 0x00007013#32, .I, .andi⟩,
    ⟨0xFE00707F#32, 0x00001013#32, .shift, .slli⟩,
    ⟨0xFE00707F#32, 0x00005013#32, .shift, .srli⟩,
    ⟨0xFE00707F#32, 0x40005013#32, .shift, .srai⟩,
    ⟨0x0000707F#32, 0x00000067#32, .I, .jalr⟩,
    ⟨0x0000707F#32, 0x00000003#32, .I, .lb⟩,
    ⟨0x0000707F#32, 0x00001003#32, .I, .lh⟩,
    ⟨0x0000707F#32, 0x00002003#32, .I, .lw⟩,
    ⟨0x0000707F#32, 0x00004003#32, .I, .lbu⟩,
    ⟨0x0000707F#32, 0x00005003#32, .I, .lhu⟩ ]

/-- The rows of format B in spec/opcode_table.json. -/
def wordRowsB : List WordRow :=
  [ ⟨0x0000707F#32, 0x00000063#32, .B, .beq⟩,
    ⟨0x0000707F#32, 0x00001063#32, .B, .bne⟩,
    ⟨0x0000707F#32, 0x00004063#32, .B, .blt⟩,
    ⟨0x0000707F#32, 0x00005063#32, .B, .bge⟩,
    ⟨0x0000707F#32, 0x00006063#32, .B, .bltu⟩,
    ⟨0x0000707F#32, 0x00007063#32, .B, .bgeu⟩ ]

/-- The rows of format J in spec/opcode_table.json. -/
def wordRowsJ : List WordRow :=
  [ ⟨0x0000007F#32, 0x0000006F#32, .J, .jal⟩ ]

/-- The rows of format S in spec/opcode_table.json. -/
def wordRowsS : List WordRow :=
  [ ⟨0x0000707F#32, 0x00000023#32, .S, .sb⟩,
    ⟨0x0000707F#32, 0x00001023#32, .S, .sh⟩,
    ⟨0x0000707F#32, 0x00002023#32, .S, .sw⟩ ]

/-- The rows of format U in spec/opcode_table.json. -/
def wordRowsU : List WordRow :=
  [ ⟨0x0000007F#32, 0x00000037#32, .U, .lui⟩,
    ⟨0x0000007F#32, 0x00000017#32, .U, .auipc⟩ ]

/-- The rows of spec/opcode_table.json. -/
def wordRows : List WordRow :=
  wordRowsR ++ wordRowsI ++ wordRowsB ++ wordRowsJ ++ wordRowsS ++ wordRowsU

/-- Why a word is no produced word (R89, R90). -/
inductive WordError where
  /-- Bits 1:0 are not 0b11, which they are in every produced word (R89). -/
  | notBaseLength
  /-- The opcode is none of R87's. -/
  | unknownOpcode
  /-- The opcode is one of R87's and its function fields select no row. -/
  | unknownFunction
deriving DecidableEq, Repr

/-- The instruction whose word this is, with its operands in canonical spelling; a word outside the set
of R89 is rejected by name. Total on every word. -/
def decodeWord (w : Word) : Except WordError Instr :=
  match wordRows.find? fun r => r.selects w with
  | some r => .ok (r.build (operandTokens r.shape w))
  | none =>
    if w &&& 0b11#32 != 0b11#32 then .error .notBaseLength
    else if wordRows.any fun r => (w ^^^ r.value) &&& 0x7F#32 == 0#32 then .error .unknownFunction
    else .error .unknownOpcode

/-! Writing the word of a well-formed instruction. -/

/-- The number that the digits of a text spell, whatever stands between them. -/
def digitsIn (t : Text) : Nat :=
  (t.filter isDigit).foldl (fun n c => n * 10 + digitValue c) 0

/-- The signed number a canonical numeral spells. -/
def signedIn (t : Text) : Int := if t.contains minus then -(digitsIn t : Int) else (digitsIn t : Int)

/-- A register number in the field whose lowest bit is `at_`. -/
def regAt (at_ : Nat) (t : Text) : Word := BitVec.ofNat 32 (digitsIn t) <<< at_

/-- An immediate as 32 bits in two's complement. -/
def imm32 (v : Int) : Word := BitVec.ofInt 32 v

/-- `width` bits of `x` from bit `lo` on, moved to bit `at_` of the word. -/
def piece (x : Word) (lo width at_ : Nat) : Word :=
  ((x >>> lo) &&& BitVec.ofNat 32 (2 ^ width - 1)) <<< at_

/-- R71: rd at 7, rs1 at 15, rs2 at 20. -/
def writeR (value : Word) : List Text → Word
  | [t₀, t₁, t₂] => value ||| regAt 7 t₀ ||| regAt 15 t₁ ||| regAt 20 t₂
  | _ => value

/-- R72: rd at 7, rs1 at 15, imm[11:0] at 20. -/
def writeI (value : Word) : List Text → Word
  | [t₀, t₁, t₂] => value ||| regAt 7 t₀ ||| regAt 15 t₁ ||| piece (imm32 (signedIn t₂)) 0 12 20
  | _ => value

/-- R72, shift variant: rd at 7, rs1 at 15, the shift amount at 20. -/
def writeShift (value : Word) : List Text → Word
  | [t₀, t₁, t₂] => value ||| regAt 7 t₀ ||| regAt 15 t₁ ||| piece (imm32 (signedIn t₂)) 0 5 20
  | _ => value

/-- R73: rs2 at 20, rs1 at 15, imm[4:0] at 7, imm[11:5] at 25. -/
def writeS (value : Word) : List Text → Word
  | [t₀, t₁] =>
    let x := imm32 (signedIn (t₁.takeWhile (· != lparen)))
    value ||| regAt 20 t₀ ||| regAt 15 (t₁.dropWhile (· != lparen)) ||| piece x 0 5 7
      ||| piece x 5 7 25
  | _ => value

/-- R74: rs1 at 15, rs2 at 20, imm[11] at 7, imm[4:1] at 8, imm[10:5] at 25, imm[12] at 31. -/
def writeB (value : Word) : List Text → Word
  | [t₀, t₁, t₂] =>
    let x := imm32 (signedIn t₂)
    value ||| regAt 15 t₀ ||| regAt 20 t₁ ||| piece x 11 1 7 ||| piece x 1 4 8 ||| piece x 5 6 25
      ||| piece x 12 1 31
  | _ => value

/-- R75: rd at 7, imm[19:12] at 12, imm[11] at 20, imm[10:1] at 21, imm[20] at 31. -/
def writeJ (value : Word) : List Text → Word
  | [t₀, t₁] =>
    let x := imm32 (signedIn t₁)
    value ||| regAt 7 t₀ ||| piece x 12 8 12 ||| piece x 11 1 20 ||| piece x 1 10 21
      ||| piece x 20 1 31
  | _ => value

/-- R76: rd at 7, imm[19:0] at 12. -/
def writeU (value : Word) : List Text → Word
  | [t₀, t₁] => value ||| regAt 7 t₀ ||| piece (imm32 (signedIn t₁)) 0 20 12
  | _ => value

/-- The word of a well-formed instruction. The numbers are the rows' match values in
spec/opcode_table.json. On an instruction that is not well formed the value means nothing. -/
def encode : Instr → Word
  | .add ops => writeR 0x00000033#32 ops
  | .sub ops => writeR 0x40000033#32 ops
  | .sll ops => writeR 0x00001033#32 ops
  | .slt ops => writeR 0x00002033#32 ops
  | .sltu ops => writeR 0x00003033#32 ops
  | .xor ops => writeR 0x00004033#32 ops
  | .srl ops => writeR 0x00005033#32 ops
  | .sra ops => writeR 0x40005033#32 ops
  | .or ops => writeR 0x00006033#32 ops
  | .and ops => writeR 0x00007033#32 ops
  | .addi ops => writeI 0x00000013#32 ops
  | .slti ops => writeI 0x00002013#32 ops
  | .sltiu ops => writeI 0x00003013#32 ops
  | .xori ops => writeI 0x00004013#32 ops
  | .ori ops => writeI 0x00006013#32 ops
  | .andi ops => writeI 0x00007013#32 ops
  | .slli ops => writeShift 0x00001013#32 ops
  | .srli ops => writeShift 0x00005013#32 ops
  | .srai ops => writeShift 0x40005013#32 ops
  | .jalr ops => writeI 0x00000067#32 ops
  | .lb ops => writeI 0x00000003#32 ops
  | .lh ops => writeI 0x00001003#32 ops
  | .lw ops => writeI 0x00002003#32 ops
  | .lbu ops => writeI 0x00004003#32 ops
  | .lhu ops => writeI 0x00005003#32 ops
  | .beq ops => writeB 0x00000063#32 ops
  | .bne ops => writeB 0x00001063#32 ops
  | .blt ops => writeB 0x00004063#32 ops
  | .bge ops => writeB 0x00005063#32 ops
  | .bltu ops => writeB 0x00006063#32 ops
  | .bgeu ops => writeB 0x00007063#32 ops
  | .jal ops => writeJ 0x0000006F#32 ops
  | .sb ops => writeS 0x00000023#32 ops
  | .sh ops => writeS 0x00001023#32 ops
  | .sw ops => writeS 0x00002023#32 ops
  | .lui ops => writeU 0x00000037#32 ops
  | .auipc ops => writeU 0x00000017#32 ops

/-! The opcode table's words as numbers. -/

/-- The instruction that the word decoder reads from an opcode-table word: `w` numbered with bit 0 the
least significant. The encoder gives a word no byte order (R53), so the number is the word (DEDUCED, log entry 15). Every row
has 32 bits; a longer number is no word. -/
def decodeTableWord (nbits w : Nat) : Option Instr :=
  if w % 2 ^ nbits < 2 ^ 32 then
    match decodeWord (BitVec.ofNat 32 (w % 2 ^ nbits)) with
    | .ok i => some i
    | .error _ => none
  else none

end Sys2Proof
end

