-- ==== Sys2Proof/Machine/Assembly.lean ====
section
/-! DEFINITION. Two's complement, the assembly functions of the layouts R71 to R76 of
spec/30_encoding.md (step 5 of R120), and the rendering of a word (spec/40_encode_pipeline.md R150).
Fields are concatenated most significant first (R140); `++` is the spec's `∥` (R10). -/

namespace Sys2Proof.Machine

/-- `enc_N` (R11, R139): the bits whose unsigned value is `v mod 2^N`. -/
def enc (N : Nat) (v : Int) : BitVec N := BitVec.ofInt N v

/-- `uenc_N` (R11): the bits whose unsigned value is `v`; it is applied to `0 <= v < 2^N` only. -/
def uenc (N : Nat) (v : Int) : BitVec N := BitVec.ofNat N v.toNat

/-- R71. -/
def assembleR (opcode : BitVec 7) (funct3 : BitVec 3) (funct7 : BitVec 7) (rd rs1 rs2 : RegIndex) :
    Word :=
  funct7 ++ rs2 ++ rs1 ++ funct3 ++ rd ++ opcode

/-- R72; `field` is the whole 12-bit field, for the shift-immediates funct7 above the amount (R81). -/
def assembleI (opcode : BitVec 7) (funct3 : BitVec 3) (rd rs1 : RegIndex) (field : BitVec 12) : Word :=
  field ++ rs1 ++ funct3 ++ rd ++ opcode

/-- R73. -/
def assembleS (opcode : BitVec 7) (funct3 : BitVec 3) (rs2 rs1 : RegIndex) (i : BitVec 12) : Word :=
  i.extractLsb 11 5 ++ rs2 ++ rs1 ++ funct3 ++ i.extractLsb 4 0 ++ opcode

/-- R74: `i[0]` appears nowhere in the word. -/
def assembleB (opcode : BitVec 7) (funct3 : BitVec 3) (rs1 rs2 : RegIndex) (i : BitVec 13) : Word :=
  i.extractLsb 12 12 ++ i.extractLsb 10 5 ++ rs2 ++ rs1 ++ funct3 ++ i.extractLsb 4 1
    ++ i.extractLsb 11 11 ++ opcode

/-- R75: the positions of the RISC-V J layout (C8, D25); `i[0]` appears nowhere in the word. -/
def assembleJ (opcode : BitVec 7) (rd : RegIndex) (i : BitVec 21) : Word :=
  i.extractLsb 20 20 ++ i.extractLsb 10 1 ++ i.extractLsb 11 11 ++ i.extractLsb 19 12 ++ rd ++ opcode

/-- R76: the operand is the 20-bit field itself. -/
def assembleU (opcode : BitVec 7) (rd : RegIndex) (i : BitVec 20) : Word := i ++ rd ++ opcode

/-- `render` (R150): character `k` is `'1'` exactly when bit `31-k` is set. -/
def render (w : Word) : Text :=
  (List.range 32).map fun k => if w.getLsbD (31 - k) then 0x31#8 else 0x30#8

end Sys2Proof.Machine
end

