-- ==== Sys2Proof/Machine/Operands.lean ====
section
/-! DEFINITION. The operand grammar: steps 2, 3 and 4 of spec/40_encode_pipeline.md R120. All the
punctuation of a line is checked before any register or immediate text is looked at (R129), and all
registers before the immediate (R136). -/

namespace Sys2Proof.Machine

/-- The text contains `','`, `'('` or `')'` (R126, R127). -/
def hasPunctuation (t : Text) : Bool := t.any fun c => c == comma || c == lparen || c == rparen

/-- An operand text after R126 to R128: no comma and no parenthesis (R130). -/
abbrev Clean (t : Text) : Prop := hasPunctuation t = false

/-- `strip_sep` (R126), for an operand token that is not the last. (A token is not empty, R12; the
empty text has no last character and is refused: DEDUCED, log entry 17.) -/
def stripSep (t : Text) : Except ErrorKind Text :=
  if t.getLast? = some comma then
    if hasPunctuation t.dropLast then .error .malformedOperands else .ok t.dropLast
  else .error .malformedOperands

/-- `strip_last` (R127), for the last operand token of formats R, I, B, U, J. -/
def stripLast (t : Text) : Except ErrorKind Text :=
  if hasPunctuation t then .error .malformedOperands else .ok t

/-- `split_paren` (R128), for the last operand token of format S: the offset text and the base text. -/
def splitParen (t : Text) : Except ErrorKind (Text × Text) :=
  if t.getLast? = some rparen then
    if t.count lparen = 1 ∧ t.count rparen = 1 ∧ comma ∉ t then
      .ok (t.take (t.idxOf lparen), (t.drop (t.idxOf lparen + 1)).dropLast)
    else .error .malformedOperands
  else .error .malformedOperands

/-- Step 2 for formats R, I and B: exactly three operand tokens (R125), then R126, R126, R127. -/
def threeOperands : List Text → Except ErrorKind (Text × Text × Text)
  | [t₀, t₁, t₂] => do
    let a ← stripSep t₀
    let b ← stripSep t₁
    let c ← stripLast t₂
    return (a, b, c)
  | _ => .error .malformedOperands

/-- Step 2 for formats U and J: exactly two operand tokens (R125), then R126, R127. -/
def twoOperands : List Text → Except ErrorKind (Text × Text)
  | [t₀, t₁] => do
    let a ← stripSep t₀
    let b ← stripLast t₁
    return (a, b)
  | _ => .error .malformedOperands

/-- Step 2 for format S: exactly two operand tokens (R125), then R126, R128. The three texts are the
stored register, the offset and the base. -/
def storeOperands : List Text → Except ErrorKind (Text × Text × Text)
  | [t₀, t₁] => do
    let a ← stripSep t₀
    let bc ← splitParen t₁
    return (a, bc.1, bc.2)
  | _ => .error .malformedOperands

/-- `reg` (R135): the index of a register text in the given RTAB. -/
def reg (rtab : List (Text × RegIndex)) (t : Text) : Except ErrorKind RegIndex :=
  match rtab.lookup t with
  | some r => .ok r
  | none => .error .unknownRegister

/-- `imm` (R138): a literal that does not parse, or whose value is out of bounds, is refused. -/
def imm (lo hi : Int) (t : Text) : Except ErrorKind Int :=
  match parseInt t with
  | none => .error .immediateOutOfRange
  | some v => if v < lo ∨ hi < v then .error .immediateOutOfRange else .ok v

end Sys2Proof.Machine
end

