-- ==== Sys2Proof/Config.lean ====
section
/-! DEFINITION. The parameters the source leaves open (spec/00_scope.md R9). Both are constants with no
body: nothing can be proved of their values. The other parameters of R9 are decided by the spec: the
whitespace set stands in Machine/Text.lean, the status codes in Machine/Ports.lean and the contents of
ITAB in Machine/Tables.lean (reset copies them into State, so every meaning reads them as an argument). -/

namespace Sys2Proof.Config

/-- MAX_LINE_LEN (R9, R288, D16): the longest line an implementation accepts. OPEN (DESIGN CHOICE, log entry 9). The model takes any
finite line; a claim about an implementation has the premise that the line is no longer than this. -/
opaque maxLineLen : Nat

/-- LATENCY (R9, R287, D15): the time from a line to its result. OPEN. No rule of the spec and no
definition of the model reads it. -/
opaque latency : Nat

end Sys2Proof.Config
end

