-- ==== Sys2Proof/Machine/Tables.lean ====
section
/-! DEFINITION. The contents of the Instruction Table: ITAB (spec/10_state.md R22) and RTAB (R24, R25).
Three rows of ITAB (add, addi, sw) are fixed by the source's examples; the values of the other 34 are
the spec's own, from general knowledge (D17, G1; UNVERIFIED, log entry 10). -/

namespace Sys2Proof.Machine.Tables

/-- R22 rows 1 to 10, format R. -/
def rRows : List (Text × Descriptor) :=
  [ (ascii ['a', 'd', 'd'],      ⟨0b0110011#7, .R 0b000#3 0b0000000#7⟩),
    (ascii ['s', 'u', 'b'],      ⟨0b0110011#7, .R 0b000#3 0b0100000#7⟩),
    (ascii ['s', 'l', 'l'],      ⟨0b0110011#7, .R 0b001#3 0b0000000#7⟩),
    (ascii ['s', 'l', 't'],      ⟨0b0110011#7, .R 0b010#3 0b0000000#7⟩),
    (ascii ['s', 'l', 't', 'u'], ⟨0b0110011#7, .R 0b011#3 0b0000000#7⟩),
    (ascii ['x', 'o', 'r'],      ⟨0b0110011#7, .R 0b100#3 0b0000000#7⟩),
    (ascii ['s', 'r', 'l'],      ⟨0b0110011#7, .R 0b101#3 0b0000000#7⟩),
    (ascii ['s', 'r', 'a'],      ⟨0b0110011#7, .R 0b101#3 0b0100000#7⟩),
    (ascii ['o', 'r'],           ⟨0b0110011#7, .R 0b110#3 0b0000000#7⟩),
    (ascii ['a', 'n', 'd'],      ⟨0b0110011#7, .R 0b111#3 0b0000000#7⟩) ]

/-- R22 rows 11 to 25, format I; rows 17 to 19 carry funct7 and are the shift-immediates. -/
def iRows : List (Text × Descriptor) :=
  [ (ascii ['a', 'd', 'd', 'i'],      ⟨0b0010011#7, .I 0b000#3⟩),
    (ascii ['s', 'l', 't', 'i'],      ⟨0b0010011#7, .I 0b010#3⟩),
    (ascii ['s', 'l', 't', 'i', 'u'], ⟨0b0010011#7, .I 0b011#3⟩),
    (ascii ['x', 'o', 'r', 'i'],      ⟨0b0010011#7, .I 0b100#3⟩),
    (ascii ['o', 'r', 'i'],           ⟨0b0010011#7, .I 0b110#3⟩),
    (ascii ['a', 'n', 'd', 'i'],      ⟨0b0010011#7, .I 0b111#3⟩),
    (ascii ['s', 'l', 'l', 'i'],      ⟨0b0010011#7, .shift 0b001#3 0b0000000#7⟩),
    (ascii ['s', 'r', 'l', 'i'],      ⟨0b0010011#7, .shift 0b101#3 0b0000000#7⟩),
    (ascii ['s', 'r', 'a', 'i'],      ⟨0b0010011#7, .shift 0b101#3 0b0100000#7⟩),
    (ascii ['j', 'a', 'l', 'r'],      ⟨0b1100111#7, .I 0b000#3⟩),
    (ascii ['l', 'b'],                ⟨0b0000011#7, .I 0b000#3⟩),
    (ascii ['l', 'h'],                ⟨0b0000011#7, .I 0b001#3⟩),
    (ascii ['l', 'w'],                ⟨0b0000011#7, .I 0b010#3⟩),
    (ascii ['l', 'b', 'u'],           ⟨0b0000011#7, .I 0b100#3⟩),
    (ascii ['l', 'h', 'u'],           ⟨0b0000011#7, .I 0b101#3⟩) ]

/-- R22 rows 26 to 31, format B. -/
def bRows : List (Text × Descriptor) :=
  [ (ascii ['b', 'e', 'q'],      ⟨0b1100011#7, .B 0b000#3⟩),
    (ascii ['b', 'n', 'e'],      ⟨0b1100011#7, .B 0b001#3⟩),
    (ascii ['b', 'l', 't'],      ⟨0b1100011#7, .B 0b100#3⟩),
    (ascii ['b', 'g', 'e'],      ⟨0b1100011#7, .B 0b101#3⟩),
    (ascii ['b', 'l', 't', 'u'], ⟨0b1100011#7, .B 0b110#3⟩),
    (ascii ['b', 'g', 'e', 'u'], ⟨0b1100011#7, .B 0b111#3⟩) ]

/-- R22 row 32, format J (C1: not the opcode of the source's discredited literal). -/
def jRows : List (Text × Descriptor) := [ (ascii ['j', 'a', 'l'], ⟨0b1101111#7, .J⟩) ]

/-- R22 rows 33 to 35, format S. -/
def sRows : List (Text × Descriptor) :=
  [ (ascii ['s', 'b'], ⟨0b0100011#7, .S 0b000#3⟩),
    (ascii ['s', 'h'], ⟨0b0100011#7, .S 0b001#3⟩),
    (ascii ['s', 'w'], ⟨0b0100011#7, .S 0b010#3⟩) ]

/-- R22 rows 36 and 37, format U. -/
def uRows : List (Text × Descriptor) :=
  [ (ascii ['l', 'u', 'i'],           ⟨0b0110111#7, .U⟩),
    (ascii ['a', 'u', 'i', 'p', 'c'], ⟨0b0010111#7, .U⟩) ]

/-- ITAB as built (R22): 37 entries, in the source's listing order, which carries no meaning. -/
def itab : List (Text × Descriptor) := rRows ++ iRows ++ bRows ++ jRows ++ sRows ++ uRows

/-- R25, first and second column: x0 to x15. -/
def lowRegisters : List (Text × RegIndex) :=
  [ (ascii ['x', '0'], 0b00000#5), (ascii ['x', '8'], 0b01000#5),
    (ascii ['x', '1'], 0b00001#5), (ascii ['x', '9'], 0b01001#5),
    (ascii ['x', '2'], 0b00010#5), (ascii ['x', '1', '0'], 0b01010#5),
    (ascii ['x', '3'], 0b00011#5), (ascii ['x', '1', '1'], 0b01011#5),
    (ascii ['x', '4'], 0b00100#5), (ascii ['x', '1', '2'], 0b01100#5),
    (ascii ['x', '5'], 0b00101#5), (ascii ['x', '1', '3'], 0b01101#5),
    (ascii ['x', '6'], 0b00110#5), (ascii ['x', '1', '4'], 0b01110#5),
    (ascii ['x', '7'], 0b00111#5), (ascii ['x', '1', '5'], 0b01111#5) ]

/-- R25, third and fourth column: x16 to x31. -/
def highRegisters : List (Text × RegIndex) :=
  [ (ascii ['x', '1', '6'], 0b10000#5), (ascii ['x', '2', '4'], 0b11000#5),
    (ascii ['x', '1', '7'], 0b10001#5), (ascii ['x', '2', '5'], 0b11001#5),
    (ascii ['x', '1', '8'], 0b10010#5), (ascii ['x', '2', '6'], 0b11010#5),
    (ascii ['x', '1', '9'], 0b10011#5), (ascii ['x', '2', '7'], 0b11011#5),
    (ascii ['x', '2', '0'], 0b10100#5), (ascii ['x', '2', '8'], 0b11100#5),
    (ascii ['x', '2', '1'], 0b10101#5), (ascii ['x', '2', '9'], 0b11101#5),
    (ascii ['x', '2', '2'], 0b10110#5), (ascii ['x', '3', '0'], 0b11110#5),
    (ascii ['x', '2', '3'], 0b10111#5), (ascii ['x', '3', '1'], 0b11111#5) ]

/-- RTAB as built (R25): 32 entries; the rows stand in the order in which R25 prints its lines. -/
def rtab : List (Text × RegIndex) := lowRegisters ++ highRegisters

end Sys2Proof.Machine.Tables
end

