-- ==== Sys2Proof/Machine/State.lean ====
section
/-! DEFINITION. The state of the encoder (spec/10_state.md). The block's own state is the two read-only
tables (R20); beside them stand the two sides of its transaction interface (R33): the lines the host
has presented and the encoder has not yet answered, and the result of the last transaction. The block
has no general registers (R27), no program counter (R28), no flags, control registers or modes
(R29, R264), no hidden state (R30) and no memory (R50). -/

namespace Sys2Proof.Machine

/-- Why a step stops the machine. No step of the encoder does: `encode` is total and every failure is
a result (DEDUCED, log entry 14; R141, R250, spec/93_implementation_defined.md part 1: "No behaviour of this block is treated
as `stuck`"). The type has no constructor, so a fault cannot even be written. -/
inductive Fault where
deriving DecidableEq, Repr

/-- Why an instruction has no meaning. -/
inductive Refusal where
  /-- Raised by the arms of `exec` for an instruction that has no meaning yet; no arm does. Safe: the
  machine stops where the hardware goes on. -/
  | notModelled (mnemonic : String)
deriving DecidableEq, Repr

/-- The state of the encoder.

* `itab`: the Instruction Table's mapping from mnemonic text to descriptor (R20, R21). Read-only.
* `rtab`: its mapping from register-name text to index (R20, R26). Read-only.
* `pending`: the `line` input (R33): the lines presented and not yet answered, oldest first. A single
  line port holds at most one; an implementation that queues (R286) holds more (DESIGN CHOICE, log
  entry 1).
* `result`: the result of the last transaction, none before the first (R31, R33, R35), held
  until the next (DESIGN CHOICE, log entry 3); the ports
  `status`, `word` and `text` are views of it (Machine/Ports.lean). -/
structure State where
  itab : List (Text × Descriptor)
  rtab : List (Text × RegIndex)
  pending : List Text
  result : Option Result
deriving DecidableEq, Repr

/-- After reset the Instruction Table is complete and the encoder is idle and ready for its first line
(R35, R280, R281); no transaction has happened, so the outputs carry no information. -/
def State.reset : State where
  itab := Tables.itab
  rtab := Tables.rtab
  pending := []
  result := none

end Sys2Proof.Machine
end

