-- ==== Sys2Proof/Machine/Ops.lean ====
section
/-! DEFINITION. The operations the 37 meanings share: the branches of spec/40_encode_pipeline.md R120
after the descriptor is found, the dispatch on the format tag (R124), returning a word, raising an
error (spec/60_exceptions.md R250, R261), the encode operation of one mnemonic, and `encode(line)` as a
function of the tables and the line. In each branch the names bound are the parsed operand set of
spec/10_state.md R32, which is created after the mnemonic lookup and gone when the operation ends. -/

namespace Sys2Proof.Machine

/-- `encode_R` (R160): three registers `rd, rs1, rs2`. -/
def encodeR (opcode : BitVec 7) (funct3 : BitVec 3) (funct7 : BitVec 7)
    (rtab : List (Text × RegIndex)) (ops : List Text) : Except ErrorKind Word := do
  let (a, b, c) ← threeOperands ops
  let rd ← reg rtab a
  let rs1 ← reg rtab b
  let rs2 ← reg rtab c
  return assembleR opcode funct3 funct7 rd rs1 rs2

/-- `encode_I` (R180), the generic path: `rd, rs1, imm`. -/
def encodeI (opcode : BitVec 7) (funct3 : BitVec 3)
    (rtab : List (Text × RegIndex)) (ops : List Text) : Except ErrorKind Word := do
  let (a, b, c) ← threeOperands ops
  let rd ← reg rtab a
  let rs1 ← reg rtab b
  let v ← imm (-2048) 2047 c
  return assembleI opcode funct3 rd rs1 (enc 12 v)

/-- `encode_Ishift` (R181): `rd, rs1, shamt` with the bare shift amount (D8); the 12-bit field is
funct7 above it. -/
def encodeIshift (opcode : BitVec 7) (funct3 : BitVec 3) (funct7 : BitVec 7)
    (rtab : List (Text × RegIndex)) (ops : List Text) : Except ErrorKind Word := do
  let (a, b, c) ← threeOperands ops
  let rd ← reg rtab a
  let rs1 ← reg rtab b
  let v ← imm 0 31 c
  return assembleI opcode funct3 rd rs1 (funct7 ++ uenc 5 v)

/-- `encode_S` (R210): `rs2, imm(rs1)`; the register inside the parentheses is resolved before the
offset to its left is examined (R260). -/
def encodeS (opcode : BitVec 7) (funct3 : BitVec 3)
    (rtab : List (Text × RegIndex)) (ops : List Text) : Except ErrorKind Word := do
  let (a, b, c) ← storeOperands ops
  let rs2 ← reg rtab a
  let rs1 ← reg rtab c
  let v ← imm (-2048) 2047 b
  return assembleS opcode funct3 rs2 rs1 (enc 12 v)

/-- `encode_B` (R220): `rs1, rs2, imm`; bit 0 of the offset is not tested (R221, D10). -/
def encodeB (opcode : BitVec 7) (funct3 : BitVec 3)
    (rtab : List (Text × RegIndex)) (ops : List Text) : Except ErrorKind Word := do
  let (a, b, c) ← threeOperands ops
  let rs1 ← reg rtab a
  let rs2 ← reg rtab b
  let v ← imm (-4096) 4095 c
  return assembleB opcode funct3 rs1 rs2 (enc 13 v)

/-- `encode_J` (R235): `rd, imm`; bit 0 of the offset is not tested (R236, D10). -/
def encodeJ (opcode : BitVec 7)
    (rtab : List (Text × RegIndex)) (ops : List Text) : Except ErrorKind Word := do
  let (a, b) ← twoOperands ops
  let rd ← reg rtab a
  let v ← imm (-1048576) 1048575 b
  return assembleJ opcode rd (enc 21 v)

/-- `encode_U` (R240): `rd, imm`, the signed 20-bit range (D9). -/
def encodeU (opcode : BitVec 7)
    (rtab : List (Text × RegIndex)) (ops : List Text) : Except ErrorKind Word := do
  let (a, b) ← twoOperands ops
  let rd ← reg rtab a
  let v ← imm (-524288) 524287 b
  return assembleU opcode rd (enc 20 v)

/-- Dispatch (R124): the descriptor's format alone selects the operand grammar and the layout, and
inside format I the presence of funct7 selects the shift path. -/
def encodeOperands (d : Descriptor) (rtab : List (Text × RegIndex)) (ops : List Text) :
    Except ErrorKind Word :=
  match d.layout with
  | .R funct3 funct7 => encodeR d.opcode funct3 funct7 rtab ops
  | .I funct3 => encodeI d.opcode funct3 rtab ops
  | .shift funct3 funct7 => encodeIshift d.opcode funct3 funct7 rtab ops
  | .S funct3 => encodeS d.opcode funct3 rtab ops
  | .B funct3 => encodeB d.opcode funct3 rtab ops
  | .U => encodeU d.opcode rtab ops
  | .J => encodeJ d.opcode rtab ops

/-- The end of an encode operation: its result is delivered, and nothing else changes (R31, R57). -/
def answer (r : Result) (s : State) : State := { s with result := some r }

/-- `return w` (R13): the operation ends with the word and status OK. -/
def emit (w : Word) (s : State) : State := answer (.ok w) s

/-- `raise E`, the block's "trap entry" (R13, R250, R261): the operation ends with the error kind and
no word. Nothing is saved and nothing changes: there is no saved pc, no cause register, no mode and no
handler. There is nothing to return from (R262): the next operation starts from the same tables. -/
def raise (e : ErrorKind) (s : State) : State := answer (.err e) s

/-- The encode operation of one mnemonic from its lookup on (R120, R123): `ITAB[m]`, and then the
branch of its descriptor. A mnemonic that is not in the table raises `UnknownMnemonic`. -/
def execMnemonic (m : Text) (ops : List Text) (s : State) : Host.Outcome State Fault Refusal :=
  match s.itab.lookup m with
  | none => .next (raise .unknownMnemonic s)
  | some d =>
    match encodeOperands d s.rtab ops with
    | .ok w => .next (emit w s)
    | .error e => .next (raise e s)

/-- The five-way sum of R31. -/
def resultOf : Except ErrorKind Word → Result
  | .ok w => .ok w
  | .error e => .err e

/-- `encode(line)` as a function of the two tables and the line, and of nothing else (R14, R120). -/
def encodeLine (itab : List (Text × Descriptor)) (rtab : List (Text × RegIndex)) (line : Text) :
    Result :=
  match splitWs line with
  | [] => .err .unknownMnemonic
  | m :: ops =>
    match itab.lookup m with
    | none => .err .unknownMnemonic
    | some d => resultOf (encodeOperands d rtab ops)

end Sys2Proof.Machine
end

