-- ==== Sys2Proof/Machine/BFormat.lean ====
section
/-! DEFINITION. The meanings of the mnemonics of format B (spec/44_b_format.md R220 to R230).
The word is `imm[12] ∥ imm[10:5] ∥ rs2 ∥ rs1 ∥ funct3 ∥ imm[4:1] ∥ imm[11] ∥ opcode`. -/

namespace Sys2Proof.Machine

/-- `beq rs1, rs2, imm` (R225). -/
def execBeq (ops : List Text) (s : State) : Host.Outcome State Fault Refusal :=
  execMnemonic (ascii ['b', 'e', 'q']) ops s

/-- `bne rs1, rs2, imm` (R226). -/
def execBne (ops : List Text) (s : State) : Host.Outcome State Fault Refusal :=
  execMnemonic (ascii ['b', 'n', 'e']) ops s

/-- `blt rs1, rs2, imm` (R227). -/
def execBlt (ops : List Text) (s : State) : Host.Outcome State Fault Refusal :=
  execMnemonic (ascii ['b', 'l', 't']) ops s

/-- `bge rs1, rs2, imm` (R228). -/
def execBge (ops : List Text) (s : State) : Host.Outcome State Fault Refusal :=
  execMnemonic (ascii ['b', 'g', 'e']) ops s

/-- `bltu rs1, rs2, imm` (R229). -/
def execBltu (ops : List Text) (s : State) : Host.Outcome State Fault Refusal :=
  execMnemonic (ascii ['b', 'l', 't', 'u']) ops s

/-- `bgeu rs1, rs2, imm` (R230). -/
def execBgeu (ops : List Text) (s : State) : Host.Outcome State Fault Refusal :=
  execMnemonic (ascii ['b', 'g', 'e', 'u']) ops s

end Sys2Proof.Machine
end

