-- ==== Sys2Proof/Machine/IFormat.lean ====
section
/-! DEFINITION. The meanings of the mnemonics of format I (spec/42_i_format.md R180 to R198).
The word is `imm[11:0] ∥ rs1 ∥ funct3 ∥ rd ∥ opcode`; for the shift-immediates the field is `funct7 ∥ shamt`. -/

namespace Sys2Proof.Machine

/-- `addi rd, rs1, imm` (R184). -/
def execAddi (ops : List Text) (s : State) : Host.Outcome State Fault Refusal :=
  execMnemonic (ascii ['a', 'd', 'd', 'i']) ops s

/-- `slti rd, rs1, imm` (R185). -/
def execSlti (ops : List Text) (s : State) : Host.Outcome State Fault Refusal :=
  execMnemonic (ascii ['s', 'l', 't', 'i']) ops s

/-- `sltiu rd, rs1, imm` (R186). -/
def execSltiu (ops : List Text) (s : State) : Host.Outcome State Fault Refusal :=
  execMnemonic (ascii ['s', 'l', 't', 'i', 'u']) ops s

/-- `xori rd, rs1, imm` (R187). -/
def execXori (ops : List Text) (s : State) : Host.Outcome State Fault Refusal :=
  execMnemonic (ascii ['x', 'o', 'r', 'i']) ops s

/-- `ori rd, rs1, imm` (R188). -/
def execOri (ops : List Text) (s : State) : Host.Outcome State Fault Refusal :=
  execMnemonic (ascii ['o', 'r', 'i']) ops s

/-- `andi rd, rs1, imm` (R189). -/
def execAndi (ops : List Text) (s : State) : Host.Outcome State Fault Refusal :=
  execMnemonic (ascii ['a', 'n', 'd', 'i']) ops s

/-- `slli rd, rs1, shamt` (R190). -/
def execSlli (ops : List Text) (s : State) : Host.Outcome State Fault Refusal :=
  execMnemonic (ascii ['s', 'l', 'l', 'i']) ops s

/-- `srli rd, rs1, shamt` (R191). -/
def execSrli (ops : List Text) (s : State) : Host.Outcome State Fault Refusal :=
  execMnemonic (ascii ['s', 'r', 'l', 'i']) ops s

/-- `srai rd, rs1, shamt` (R192). -/
def execSrai (ops : List Text) (s : State) : Host.Outcome State Fault Refusal :=
  execMnemonic (ascii ['s', 'r', 'a', 'i']) ops s

/-- `jalr rd, rs1, imm` (R193). -/
def execJalr (ops : List Text) (s : State) : Host.Outcome State Fault Refusal :=
  execMnemonic (ascii ['j', 'a', 'l', 'r']) ops s

/-- `lb rd, rs1, imm` (R194). -/
def execLb (ops : List Text) (s : State) : Host.Outcome State Fault Refusal :=
  execMnemonic (ascii ['l', 'b']) ops s

/-- `lh rd, rs1, imm` (R195). -/
def execLh (ops : List Text) (s : State) : Host.Outcome State Fault Refusal :=
  execMnemonic (ascii ['l', 'h']) ops s

/-- `lw rd, rs1, imm` (R196). -/
def execLw (ops : List Text) (s : State) : Host.Outcome State Fault Refusal :=
  execMnemonic (ascii ['l', 'w']) ops s

/-- `lbu rd, rs1, imm` (R197). -/
def execLbu (ops : List Text) (s : State) : Host.Outcome State Fault Refusal :=
  execMnemonic (ascii ['l', 'b', 'u']) ops s

/-- `lhu rd, rs1, imm` (R198). -/
def execLhu (ops : List Text) (s : State) : Host.Outcome State Fault Refusal :=
  execMnemonic (ascii ['l', 'h', 'u']) ops s

end Sys2Proof.Machine
end

