-- ==== Sys2Proof/Machine/JFormat.lean ====
section
/-! DEFINITION. The meanings of the mnemonics of format J (spec/45_j_format.md R235 to R238).
The word is `imm[20] ∥ imm[10:1] ∥ imm[11] ∥ imm[19:12] ∥ rd ∥ opcode`. -/

namespace Sys2Proof.Machine

/-- `jal rd, imm` (R235). -/
def execJal (ops : List Text) (s : State) : Host.Outcome State Fault Refusal :=
  execMnemonic (ascii ['j', 'a', 'l']) ops s

end Sys2Proof.Machine
end

