-- ==== Sys2Proof/Machine/RFormat.lean ====
section
/-! DEFINITION. The meanings of the mnemonics of format R (spec/41_r_format.md R160 to R172).
The word is `funct7 ∥ rs2 ∥ rs1 ∥ funct3 ∥ rd ∥ opcode`. -/

namespace Sys2Proof.Machine

/-- `add rd, rs1, rs2` (R163). -/
def execAdd (ops : List Text) (s : State) : Host.Outcome State Fault Refusal :=
  execMnemonic (ascii ['a', 'd', 'd']) ops s

/-- `sub rd, rs1, rs2` (R164). -/
def execSub (ops : List Text) (s : State) : Host.Outcome State Fault Refusal :=
  execMnemonic (ascii ['s', 'u', 'b']) ops s

/-- `sll rd, rs1, rs2` (R165). -/
def execSll (ops : List Text) (s : State) : Host.Outcome State Fault Refusal :=
  execMnemonic (ascii ['s', 'l', 'l']) ops s

/-- `slt rd, rs1, rs2` (R166). -/
def execSlt (ops : List Text) (s : State) : Host.Outcome State Fault Refusal :=
  execMnemonic (ascii ['s', 'l', 't']) ops s

/-- `sltu rd, rs1, rs2` (R167). -/
def execSltu (ops : List Text) (s : State) : Host.Outcome State Fault Refusal :=
  execMnemonic (ascii ['s', 'l', 't', 'u']) ops s

/-- `xor rd, rs1, rs2` (R168). -/
def execXor (ops : List Text) (s : State) : Host.Outcome State Fault Refusal :=
  execMnemonic (ascii ['x', 'o', 'r']) ops s

/-- `srl rd, rs1, rs2` (R169). -/
def execSrl (ops : List Text) (s : State) : Host.Outcome State Fault Refusal :=
  execMnemonic (ascii ['s', 'r', 'l']) ops s

/-- `sra rd, rs1, rs2` (R170). -/
def execSra (ops : List Text) (s : State) : Host.Outcome State Fault Refusal :=
  execMnemonic (ascii ['s', 'r', 'a']) ops s

/-- `or rd, rs1, rs2` (R171). -/
def execOr (ops : List Text) (s : State) : Host.Outcome State Fault Refusal :=
  execMnemonic (ascii ['o', 'r']) ops s

/-- `and rd, rs1, rs2` (R172). -/
def execAnd (ops : List Text) (s : State) : Host.Outcome State Fault Refusal :=
  execMnemonic (ascii ['a', 'n', 'd']) ops s

end Sys2Proof.Machine
end

