-- ==== Sys2Proof/Machine/SFormat.lean ====
section
/-! DEFINITION. The meanings of the mnemonics of format S (spec/43_s_format.md R210 to R215).
The word is `imm[11:5] ∥ rs2 ∥ rs1 ∥ funct3 ∥ imm[4:0] ∥ opcode`. -/

namespace Sys2Proof.Machine

/-- `sb rs2, imm(rs1)` (R213). -/
def execSb (ops : List Text) (s : State) : Host.Outcome State Fault Refusal :=
  execMnemonic (ascii ['s', 'b']) ops s

/-- `sh rs2, imm(rs1)` (R214). -/
def execSh (ops : List Text) (s : State) : Host.Outcome State Fault Refusal :=
  execMnemonic (ascii ['s', 'h']) ops s

/-- `sw rs2, imm(rs1)` (R215). -/
def execSw (ops : List Text) (s : State) : Host.Outcome State Fault Refusal :=
  execMnemonic (ascii ['s', 'w']) ops s

end Sys2Proof.Machine
end

