-- ==== Sys2Proof/Machine/UFormat.lean ====
section
/-! DEFINITION. The meanings of the mnemonics of format U (spec/46_u_format.md R240 to R242).
The word is `imm[19:0] ∥ rd ∥ opcode`. -/

namespace Sys2Proof.Machine

/-- `lui rd, imm` (R241). -/
def execLui (ops : List Text) (s : State) : Host.Outcome State Fault Refusal :=
  execMnemonic (ascii ['l', 'u', 'i']) ops s

/-- `auipc rd, imm` (R242). -/
def execAuipc (ops : List Text) (s : State) : Host.Outcome State Fault Refusal :=
  execMnemonic (ascii ['a', 'u', 'i', 'p', 'c']) ops s

end Sys2Proof.Machine
end

