-- ==== Sys2Proof/Machine/Dispatch.lean ====
section
/-! DEFINITION. The dispatch: one arm per instruction of spec/opcode_table.json. -/

namespace Sys2Proof.Machine

def exec (i : Instr) (s : State) : Host.Outcome State Fault Refusal :=
  match i with
  | .add ops => Sys2Proof.Machine.execAdd ops s
  | .sub ops => Sys2Proof.Machine.execSub ops s
  | .sll ops => Sys2Proof.Machine.execSll ops s
  | .slt ops => Sys2Proof.Machine.execSlt ops s
  | .sltu ops => Sys2Proof.Machine.execSltu ops s
  | .xor ops => Sys2Proof.Machine.execXor ops s
  | .srl ops => Sys2Proof.Machine.execSrl ops s
  | .sra ops => Sys2Proof.Machine.execSra ops s
  | .or ops => Sys2Proof.Machine.execOr ops s
  | .and ops => Sys2Proof.Machine.execAnd ops s
  | .addi ops => Sys2Proof.Machine.execAddi ops s
  | .slti ops => Sys2Proof.Machine.execSlti ops s
  | .sltiu ops => Sys2Proof.Machine.execSltiu ops s
  | .xori ops => Sys2Proof.Machine.execXori ops s
  | .ori ops => Sys2Proof.Machine.execOri ops s
  | .andi ops => Sys2Proof.Machine.execAndi ops s
  | .slli ops => Sys2Proof.Machine.execSlli ops s
  | .srli ops => Sys2Proof.Machine.execSrli ops s
  | .srai ops => Sys2Proof.Machine.execSrai ops s
  | .jalr ops => Sys2Proof.Machine.execJalr ops s
  | .lb ops => Sys2Proof.Machine.execLb ops s
  | .lh ops => Sys2Proof.Machine.execLh ops s
  | .lw ops => Sys2Proof.Machine.execLw ops s
  | .lbu ops => Sys2Proof.Machine.execLbu ops s
  | .lhu ops => Sys2Proof.Machine.execLhu ops s
  | .beq ops => Sys2Proof.Machine.execBeq ops s
  | .bne ops => Sys2Proof.Machine.execBne ops s
  | .blt ops => Sys2Proof.Machine.execBlt ops s
  | .bge ops => Sys2Proof.Machine.execBge ops s
  | .bltu ops => Sys2Proof.Machine.execBltu ops s
  | .bgeu ops => Sys2Proof.Machine.execBgeu ops s
  | .jal ops => Sys2Proof.Machine.execJal ops s
  | .sb ops => Sys2Proof.Machine.execSb ops s
  | .sh ops => Sys2Proof.Machine.execSh ops s
  | .sw ops => Sys2Proof.Machine.execSw ops s
  | .lui ops => Sys2Proof.Machine.execLui ops s
  | .auipc ops => Sys2Proof.Machine.execAuipc ops s

end Sys2Proof.Machine
end

