-- ==== Sys2Proof/Machine/Ports.lean ====
section
/-! DEFINITION. The output ports `status`, `word` and `text` (spec/10_state.md R33) as views of the
result. When the status is not 0 the word and the text carry no information (D13), and before the first
transaction no port does (R35): the views have no value there, so nothing can be claimed of it (DEDUCED, log entry 6). -/

namespace Sys2Proof.Machine

/-- The status code of an error kind (R251 to R255, D12). -/
def errorCode : ErrorKind → BitVec 3
  | .unknownMnemonic => 1
  | .malformedOperands => 2
  | .unknownRegister => 3
  | .immediateOutOfRange => 4

/-- The status code of a result: 0 is OK (R33, R255). -/
def statusOf : Result → BitVec 3
  | .ok _ => 0
  | .err e => errorCode e

/-- The word of a result; an error has none (R31). -/
def wordOf : Result → Option Word
  | .ok w => some w
  | .err _ => none

/-- The `status` port; no value before the first transaction (R35). -/
def statusPort (s : State) : Option (BitVec 3) := s.result.map statusOf

/-- The `word` port; a value only when the status is 0. -/
def wordPort (s : State) : Option Word := s.result.bind wordOf

/-- The `text` port: the rendering of the word (R150); a value only when the status is 0. -/
def textPort (s : State) : Option Text := (wordPort s).map render

end Sys2Proof.Machine
end

