-- ==== Sys2Proof/Machine/Step.lean ====
section
/-! DEFINITION. One step of the encoder is one transaction (spec/10_state.md R33): it takes the oldest
line not yet answered, reads the instruction in it, and answers with its result. With no line waiting
the encoder is idle and the step changes nothing (DESIGN CHOICE, log entry 2). -/

namespace Sys2Proof.Machine

/-- One encode operation (R120): step 1 of the algorithm is `decodeLine`, and the rest is the meaning
of the mnemonic. The line leaves the input whatever its result (R262). -/
def step (s : State) : Host.Outcome State Fault Refusal :=
  match s.pending with
  | [] => .next s
  | line :: rest =>
    match decodeLine line with
    | .error e => .next (raise e { s with pending := rest })
    | .ok i => exec i { s with pending := rest }

/-- The line that stands for an opcode-table word: the canonical line of the instruction the word
decoder reads from it. No line produces a word outside the opcode table (R90); for such a word it is
the empty line. -/
def tableWordLine (nbits w : Nat) : Text :=
  match decodeTableWord nbits w with
  | some i => i.line
  | none => []

/-- The state with the instruction of an opcode-table word presented as the next line: the encoder
consumes lines, not words, so this is the line whose encoding is that word, put in front of the lines
waiting (DESIGN CHOICE, log entry 8). -/
def State.withFetchWord (s : State) (nbits w : Nat) : State :=
  { s with pending := tableWordLine nbits w :: s.pending }

end Sys2Proof.Machine
end

