-- ==== Sys2Proof/Safety.lean ====
section
/-! DEFINITION. What counts as a safe run, in the terms the statements use: the Instruction Table is as
it was built, and the encoder has never put out a word that is not one of its own
(spec/10_state.md R20; spec/30_encoding.md R89, R90; spec/40_encode_pipeline.md R141). Beside it stand
the words the statements need for operand tokens. -/

namespace Sys2Proof.Machine

/-- The Instruction Table holds the rows of R22 and R25, complete and final (R280). -/
structure TablesBuilt (s : State) : Prop where
  itab : s.itab = Tables.itab
  rtab : s.rtab = Tables.rtab

/-- The set of words the encoder can produce (R89): the words that have the fixed bits of some row
(DEDUCED, log entry 19). -/
def isProducible (w : Word) : Bool := wordRows.any fun r => r.selects w

/-- The invariant of the encoder: the tables are as built, and a word on the output is one of R89's. -/
structure EncoderInv (s : State) : Prop where
  tables : TablesBuilt s
  produced : ∀ w, s.result = some (.ok w) → isProducible w = true

/-- A step is safe when it goes on and keeps the invariant; a run is safe when every step is. -/
def SafeStep (s : State) : Prop := ∃ t, step s = .next t ∧ EncoderInv t

/-- A register operand token that is not the last: the register's name and its one comma. -/
def regToken (r : RegIndex) : Text := sepToken (regName r)

/-- The text is one of the 32 register names. -/
def NamesRegister (t : Text) : Prop := ∃ r, t = regName r

/-- The text is a literal whose value lies between the bounds, both inclusive (R79, R104). -/
def LiteralWithin (lo hi : Int) (t : Text) : Prop := ∃ v, parseInt t = some v ∧ lo ≤ v ∧ v ≤ hi

/-- The operand tokens have the punctuation of formats R, I and B: three, a comma after the first two
and no other (R125 to R127). -/
def ThreeShape (ops : List Text) : Prop :=
  ∃ a b c, ops = [sepToken a, sepToken b, c] ∧ Clean a ∧ Clean b ∧ Clean c

/-- The operand tokens have the punctuation of formats J and U (R125 to R127). -/
def TwoShape (ops : List Text) : Prop := ∃ a b, ops = [sepToken a, b] ∧ Clean a ∧ Clean b

/-- The operand tokens have the punctuation of format S (R125, R126, R128). -/
def StoreShape (ops : List Text) : Prop :=
  ∃ a b c, ops = [sepToken a, storeToken b c] ∧ Clean a ∧ Clean b ∧ Clean c

/-- `nops` of R120: how many operand tokens the instruction's format wants. -/
def operandCount : Instr → Nat
  | .add _ | .sub _ | .sll _ | .slt _ | .sltu _ | .xor _ | .srl _ | .sra _ | .or _ | .and _
  | .addi _ | .slti _ | .sltiu _ | .xori _ | .ori _ | .andi _ | .slli _ | .srli _ | .srai _
  | .jalr _ | .lb _ | .lh _ | .lw _ | .lbu _ | .lhu _
  | .beq _ | .bne _ | .blt _ | .bge _ | .bltu _ | .bgeu _ => 3
  | .jal _ | .sb _ | .sh _ | .sw _ | .lui _ | .auipc _ => 2

end Sys2Proof.Machine
end

