-- ==== Sys2Proof/Certificates/Slice0/Obligations.lean ====
section
/-! DEFINITION. The statements. Each docstring names the rules of spec/ that the statement formalises,
and the spec's own decision (D<n>, spec/92_eei_decisions.md) or general-knowledge entry (G<n>) where one
bears on it. The values of 34 of the 37 rows of ITAB are the spec's from general knowledge (R22, D17, G1;
log entry 10), so every statement about the words of mnemonics other than `add`, `addi` and `sw` rests
on that. -/

open Sys2Proof Sys2Proof.Machine

/-! The two tables, reset and the interface. -/

/-- R20: no step and no meaning writes either mapping; as built, ITAB has exactly 37 entries and RTAB
exactly 32, with no key twice. -/
def Obligations.TablesReadOnly : Prop :=
  (∀ s t, step s = .next t → t.itab = s.itab ∧ t.rtab = s.rtab) ∧
  (∀ i s t, exec i s = .next t → t.itab = s.itab ∧ t.rtab = s.rtab) ∧
  State.reset.itab.length = 37 ∧ (State.reset.itab.map Prod.fst).Nodup ∧
  State.reset.rtab.length = 32 ∧ (State.reset.rtab.map Prod.fst).Nodup

/-- R35, R280, R281: after reset the tables are complete, the encoder is idle, and no port carries
information. (That the idle encoder's input is an empty list of lines is the model's: log entry 1.) -/
def Obligations.ResetIsIdleWithTablesBuilt : Prop :=
  TablesBuilt State.reset ∧ State.reset.pending = [] ∧
  statusPort State.reset = none ∧ wordPort State.reset = none ∧ textPort State.reset = none

/-- R23: within format I, funct7 is present exactly when the mnemonic is `slli`, `srli` or `srai`. (That
the other formats carry exactly their function fields is in the type `Layout`.) -/
def Obligations.ShiftLayoutExactlyForShiftImmediates : Prop :=
  ∀ p ∈ State.reset.itab,
    (∃ f3 f7, p.2.layout = .shift f3 f7) ↔
      p.1 = (Instr.slli []).key ∨ p.1 = (Instr.srli []).key ∨ p.1 = (Instr.srai []).key

/-- R24: RTAB has exactly 32 entries; the key of the entry with index `i` is `'x'` and the decimal
numeral of `i`, digits only and no leading zero; and no other text is a key (D4). -/
def Obligations.RegisterNamesAreExactlyTheCanonicalOnes : Prop :=
  State.reset.rtab.length = 32 ∧
  (∀ (t : Text) (r : RegIndex), State.reset.rtab.lookup t = some r ↔ t = regName r) ∧
  (∀ r : RegIndex, ∃ ds : Text, regName r = 0x78#8 :: ds ∧ (∀ c ∈ ds, isDigit c = true) ∧
    parseInt ds = some (r.toNat : Int) ∧ (ds.head? = some 0x30#8 → r = 0))

/-- The ports of R33 as views of the result: status 0 with the word and its rendering for `Ok`, and the
codes 1 to 4 of R255 (D12) for the four kinds. Two clauses are the model's choice of how to write R33's
and R35's "carry no information": no port has a value before the first transaction, because there is no
result then (DESIGN CHOICE, log entry 3), and an error leaves the word and text ports without a value
(DEDUCED, log entry 6; D13). -/
def Obligations.PortsShowTheResult : Prop :=
  ∀ s : State,
    (s.result = none → statusPort s = none ∧ wordPort s = none ∧ textPort s = none) ∧
    (∀ w, s.result = some (.ok w) →
      statusPort s = some 0 ∧ wordPort s = some w ∧ textPort s = some (render w)) ∧
    (∀ e, s.result = some (.err e) →
      wordPort s = none ∧ textPort s = none ∧
      statusPort s = some (match e with
        | .unknownMnemonic => 1
        | .malformedOperands => 2
        | .unknownRegister => 3
        | .immediateOutOfRange => 4))

/-- R150: the rendering has 32 characters, character `k` is `'1'` exactly when bit `31-k` is set and
`'0'` otherwise; it is a bijection between the words and the 32-character texts of `'0'` and `'1'`;
and the `text` output is the rendering of the word. -/
def Obligations.RenderingIsBijective : Prop :=
  (∀ w : Word, (render w).length = 32 ∧
    ∀ k, k < 32 → (render w)[k]? = some (if w.getLsbD (31 - k) then 0x31#8 else 0x30#8)) ∧
  (∀ v w : Word, render v = render w → v = w) ∧
  (∀ t : Text, t.length = 32 → (∀ c ∈ t, c = 0x30#8 ∨ c = 0x31#8) → ∃ w : Word, render w = t) ∧
  (∀ (s : State) (w : Word), wordPort s = some w → textPort s = some (render w))

/-! One step, and runs. -/

/-- A step takes the oldest waiting line and runs the instruction in it: the meaning of that instruction,
on the state without the line; a line in which the decoder finds no instruction raises the decoder's
error and nothing else changes (R120 steps 1 and 2, R123). -/
def Obligations.StepRunsInstructionInLine : Prop :=
  ∀ (s : State) line rest, s.pending = line :: rest →
    (∀ i, decodeLine line = .ok i → step s = exec i { s with pending := rest }) ∧
    (∀ e, decodeLine line = .error e →
      step s = .next { s with pending := rest, result := some (.err e) })

/-- The model's choice (log entry 2), from R281 ("After reset the encoder is idle and ready for its first
line"): with no line waiting a step changes nothing. -/
def Obligations.IdleStepChangesNothing : Prop :=
  ∀ s : State, s.pending = [] → step s = .next s

/-- The step is the encode operation: on tables as built, one step answers a waiting line with
`encode(line)` of R120, a function of the two tables and the line; the line leaves the input and
nothing else changes. -/
def Obligations.StepComputesEncode : Prop :=
  ∀ (s : State) line rest, TablesBuilt s → s.pending = line :: rest →
    step s = .next { s with pending := rest,
                            result := some (encodeLine s.itab s.rtab line) }

/-- R141 (a derived rule), R31: every step goes on, whatever the bytes of the line and whatever the
tables hold, and a waiting line always gets a result. -/
def Obligations.EveryLineIsAnswered : Prop :=
  ∀ s : State, ∃ t, step s = .next t ∧
    ∀ line rest, s.pending = line :: rest → t.pending = rest ∧ ∃ r, t.result = some r

/-- R14: two encode operations on equal lines give equal results: the result reads nothing but the line
and the tables, whatever other lines wait and whatever was answered before. -/
def Obligations.EqualLinesGiveEqualResults : Prop :=
  ∀ (s s' : State) line rest rest',
    s.pending = line :: rest → s'.pending = line :: rest' → s.itab = s'.itab → s.rtab = s'.rtab →
    ∃ t t' r, step s = .next t ∧ step s' = .next t' ∧ t.result = some r ∧ t'.result = some r

/-- R59, R262: in a batch every line gets the result it would have alone, whatever the lines before it
are and however they fail: after the lines before it have been answered, the next step answers it with
`encode(line)`, and the tables are what they were. -/
def Obligations.BatchAnswersEachLineAlone : Prop :=
  ∀ (s : State) (before : List Text) line rest,
    TablesBuilt s → s.pending = before ++ line :: rest →
    ∃ t : State, Host.Core.run core (before.length + 1) s = .next t ∧
      t.pending = rest ∧ t.result = some (encodeLine s.itab s.rtab line) ∧
      t.itab = s.itab ∧ t.rtab = s.rtab

/-- The invariant (R20, R89, R90): every step keeps the tables as built and puts out only words of the
producible set. -/
def Obligations.StepKeepsInvariant : Prop :=
  ∀ s t, EncoderInv s → step s = .next t → EncoderInv t

/-- The invariant holds after reset. -/
def Obligations.ResetMeetsInvariant : Prop := EncoderInv State.reset

/-- R57, R261: a meaning writes the result and nothing else, for all 37 instructions, every operand
tokens and every table. -/
def Obligations.MeaningChangesResultOnly : Prop :=
  ∀ i s, ∃ r, exec i s = .next { s with result := some r }

/-! Tokens, literals and the errors every instruction shares. -/

/-- R121: which whitespace separates two pieces of a line does not matter, and whitespace before the
first and after the last token does not matter: the step is the same. -/
def Obligations.WhitespaceRunsAreEquivalent : Prop :=
  ∀ (s : State) (rest : List Text) (a b w w' : Text),
    (∀ c ∈ w, isWs c = true) → (∀ c ∈ w', isWs c = true) →
    (w ≠ [] → w' ≠ [] →
      step { s with pending := (a ++ w ++ b) :: rest } =
        step { s with pending := (a ++ w' ++ b) :: rest }) ∧
    step { s with pending := (w ++ a ++ w') :: rest } = step { s with pending := a :: rest }

/-- R104: the value of a well-formed literal is the decimal value of its digits (leading zeros allowed),
negated when the `'-'` is present; every other text is malformed, and as an immediate operand raises
`ImmediateOutOfRange` whatever the range (D7). -/
def Obligations.LiteralSyntaxAndValue : Prop :=
  (∀ ds : Text, ds ≠ [] → (∀ c ∈ ds, isDigit c = true) →
    parseInt ds = some ((ds.foldl (fun n c => n * 10 + (c.toNat - 0x30)) 0 : Nat) : Int) ∧
    parseInt (minus :: ds) =
      some (-((ds.foldl (fun n c => n * 10 + (c.toNat - 0x30)) 0 : Nat) : Int))) ∧
  (∀ t : Text,
    (¬ ∃ ds : Text, ds ≠ [] ∧ (∀ c ∈ ds, isDigit c = true) ∧ (t = ds ∨ t = minus :: ds)) →
    parseInt t = none ∧ ∀ lo hi, imm lo hi t = .error .immediateOutOfRange)

/-- R122, R123: a line with no token, or whose first token is none of the 37 mnemonics, raises
`UnknownMnemonic`, whatever follows the first token (D3). -/
def Obligations.UnknownFirstTokenRaisesUnknownMnemonic : Prop :=
  ∀ (s : State) line rest, s.pending = line :: rest →
    (splitWs line = [] ∨ ∃ m ops, splitWs line = m :: ops ∧ ∀ i : Instr, i.key ≠ m) →
    step s = .next { s with pending := rest, result := some (.err .unknownMnemonic) }

/-- R125: for every instruction, a token count other than the format's raises `MalformedOperands`. -/
def Obligations.WrongTokenCountIsMalformed : Prop :=
  ∀ (i : Instr) (s : State), TablesBuilt s → i.ops.length ≠ operandCount i →
    exec i s = .next { s with result := some (.err .malformedOperands) }

/-- R257 (a derived rule): on tables as built no instruction raises `UnknownMnemonic`, and the ten of
format R never raise `ImmediateOutOfRange`. -/
def Obligations.ErrorKindsOfTheFormats : Prop :=
  ∀ (i : Instr) (s t : State), TablesBuilt s → exec i s = .next t →
    t.result ≠ some (.err .unknownMnemonic) ∧
    ((∃ ops, i ∈ [Instr.add ops, .sub ops, .sll ops, .slt ops, .sltu ops, .xor ops, .srl ops,
        .sra ops, .or ops, .and ops]) → t.result ≠ some (.err .immediateOutOfRange))

/-! The instructions, family by family: for ALL operand tokens, the word where they are accepted (with
everything but the result unchanged) and the error where they are not, in the order of R260 (D11). The
clauses of each statement exclude each other and together cover every list of tokens. -/

/-- R160, R161, R163 to R172: the ten mnemonics of format R. -/
def Obligations.RFormatMeanings : Prop :=
  ∀ s : State, TablesBuilt s → ∀ row ∈
    [(Instr.add, 0b000#3, 0b0000000#7, 0x00000033#32), (Instr.sub, 0b000#3, 0b0100000#7, 0x40000033#32),
     (Instr.sll, 0b001#3, 0b0000000#7, 0x00001033#32), (Instr.slt, 0b010#3, 0b0000000#7, 0x00002033#32),
     (Instr.sltu, 0b011#3, 0b0000000#7, 0x00003033#32),
     (Instr.xor, 0b100#3, 0b0000000#7, 0x00004033#32),
     (Instr.srl, 0b101#3, 0b0000000#7, 0x00005033#32), (Instr.sra, 0b101#3, 0b0100000#7, 0x40005033#32),
     (Instr.or, 0b110#3, 0b0000000#7, 0x00006033#32), (Instr.and, 0b111#3, 0b0000000#7, 0x00007033#32)],
    (∀ rd rs1 rs2 : RegIndex, ∃ w : Word,
      exec (row.1 [regToken rd, regToken rs1, regName rs2]) s =
        .next { s with result := some (.ok w) } ∧
      w = row.2.2.1 ++ rs2 ++ rs1 ++ row.2.1 ++ rd ++ 0b0110011#7 ∧
      w &&& 0xFE00707F#32 = row.2.2.2) ∧
    (∀ ops, ¬ ThreeShape ops →
      exec (row.1 ops) s = .next { s with result := some (.err .malformedOperands) }) ∧
    (∀ a b c : Text, Clean a → Clean b → Clean c →
      ¬ (NamesRegister a ∧ NamesRegister b ∧ NamesRegister c) →
      exec (row.1 [sepToken a, sepToken b, c]) s =
        .next { s with result := some (.err .unknownRegister) })

/-- R184 to R189, R193 to R198: the twelve mnemonics of format I without funct7 (six arithmetic, `jalr`,
five loads), on the generic path R180, R182. -/
def Obligations.IFormatGenericMeanings : Prop :=
  ∀ s : State, TablesBuilt s → ∀ row ∈
    [(Instr.addi, 0b0010011#7, 0b000#3, 0x00000013#32), (Instr.slti, 0b0010011#7, 0b010#3, 0x00002013#32),
     (Instr.sltiu, 0b0010011#7, 0b011#3, 0x00003013#32),
     (Instr.xori, 0b0010011#7, 0b100#3, 0x00004013#32), (Instr.ori, 0b0010011#7, 0b110#3, 0x00006013#32),
     (Instr.andi, 0b0010011#7, 0b111#3, 0x00007013#32), (Instr.jalr, 0b1100111#7, 0b000#3, 0x00000067#32),
     (Instr.lb, 0b0000011#7, 0b000#3, 0x00000003#32), (Instr.lh, 0b0000011#7, 0b001#3, 0x00001003#32),
     (Instr.lw, 0b0000011#7, 0b010#3, 0x00002003#32), (Instr.lbu, 0b0000011#7, 0b100#3, 0x00004003#32),
     (Instr.lhu, 0b0000011#7, 0b101#3, 0x00005003#32)],
    (∀ (rd rs1 : RegIndex) (t : Text) (v : Int), parseInt t = some v → -2048 ≤ v → v ≤ 2047 →
      ∃ w : Word,
      exec (row.1 [regToken rd, regToken rs1, t]) s = .next { s with result := some (.ok w) } ∧
      w = BitVec.ofInt 12 v ++ rs1 ++ row.2.2.1 ++ rd ++ row.2.1 ∧
      w &&& 0x0000707F#32 = row.2.2.2) ∧
    (∀ ops, ¬ ThreeShape ops →
      exec (row.1 ops) s = .next { s with result := some (.err .malformedOperands) }) ∧
    (∀ a b c : Text, Clean a → Clean b → Clean c → ¬ (NamesRegister a ∧ NamesRegister b) →
      exec (row.1 [sepToken a, sepToken b, c]) s =
        .next { s with result := some (.err .unknownRegister) }) ∧
    (∀ (rd rs1 : RegIndex) (t : Text), Clean t → ¬ LiteralWithin (-2048) 2047 t →
      exec (row.1 [regToken rd, regToken rs1, t]) s =
        .next { s with result := some (.err .immediateOutOfRange) })

/-- R181, R190 to R192: the shift-immediates take the bare shift amount 0 to 31 (D8), never the generic
12-bit path. -/
def Obligations.ShiftImmediateMeanings : Prop :=
  ∀ s : State, TablesBuilt s → ∀ row ∈
    [(Instr.slli, 0b001#3, 0b0000000#7, 0x00001013#32), (Instr.srli, 0b101#3, 0b0000000#7, 0x00005013#32),
     (Instr.srai, 0b101#3, 0b0100000#7, 0x40005013#32)],
    (∀ (rd rs1 : RegIndex) (t : Text) (n : Nat), parseInt t = some (n : Int) → n ≤ 31 →
      ∃ w : Word,
      exec (row.1 [regToken rd, regToken rs1, t]) s = .next { s with result := some (.ok w) } ∧
      w = row.2.2.1 ++ BitVec.ofNat 5 n ++ rs1 ++ row.2.1 ++ rd ++ 0b0010011#7 ∧
      w &&& 0xFE00707F#32 = row.2.2.2) ∧
    (∀ ops, ¬ ThreeShape ops →
      exec (row.1 ops) s = .next { s with result := some (.err .malformedOperands) }) ∧
    (∀ a b c : Text, Clean a → Clean b → Clean c → ¬ (NamesRegister a ∧ NamesRegister b) →
      exec (row.1 [sepToken a, sepToken b, c]) s =
        .next { s with result := some (.err .unknownRegister) }) ∧
    (∀ (rd rs1 : RegIndex) (t : Text), Clean t → ¬ LiteralWithin 0 31 t →
      exec (row.1 [regToken rd, regToken rs1, t]) s =
        .next { s with result := some (.err .immediateOutOfRange) })

/-- R210, R211, R213 to R215: the three mnemonics of format S, `rs2, imm(rs1)`, the immediate cut at
bit 5. -/
def Obligations.SFormatMeanings : Prop :=
  ∀ s : State, TablesBuilt s → ∀ row ∈
    [(Instr.sb, 0b000#3, 0x00000023#32), (Instr.sh, 0b001#3, 0x00001023#32),
     (Instr.sw, 0b010#3, 0x00002023#32)],
    (∀ (rs2 rs1 : RegIndex) (t : Text) (v : Int), parseInt t = some v → -2048 ≤ v → v ≤ 2047 →
      ∃ w : Word,
      exec (row.1 [regToken rs2, storeToken t (regName rs1)]) s =
        .next { s with result := some (.ok w) } ∧
      w = (BitVec.ofInt 12 v).extractLsb 11 5 ++ rs2 ++ rs1 ++ row.2.1
            ++ (BitVec.ofInt 12 v).extractLsb 4 0 ++ 0b0100011#7 ∧
      w &&& 0x0000707F#32 = row.2.2) ∧
    (∀ ops, ¬ StoreShape ops →
      exec (row.1 ops) s = .next { s with result := some (.err .malformedOperands) }) ∧
    (∀ a b c : Text, Clean a → Clean b → Clean c → ¬ (NamesRegister a ∧ NamesRegister c) →
      exec (row.1 [sepToken a, storeToken b c]) s =
        .next { s with result := some (.err .unknownRegister) }) ∧
    (∀ (rs2 rs1 : RegIndex) (t : Text), Clean t → ¬ LiteralWithin (-2048) 2047 t →
      exec (row.1 [regToken rs2, storeToken t (regName rs1)]) s =
        .next { s with result := some (.err .immediateOutOfRange) })

/-- R220, R222, R225 to R230: the six mnemonics of format B, `rs1, rs2, imm`, the offset scattered and
its bit 0 left out. -/
def Obligations.BFormatMeanings : Prop :=
  ∀ s : State, TablesBuilt s → ∀ row ∈
    [(Instr.beq, 0b000#3, 0x00000063#32), (Instr.bne, 0b001#3, 0x00001063#32),
     (Instr.blt, 0b100#3, 0x00004063#32), (Instr.bge, 0b101#3, 0x00005063#32),
     (Instr.bltu, 0b110#3, 0x00006063#32), (Instr.bgeu, 0b111#3, 0x00007063#32)],
    (∀ (rs1 rs2 : RegIndex) (t : Text) (v : Int), parseInt t = some v → -4096 ≤ v → v ≤ 4095 →
      ∃ w : Word,
      exec (row.1 [regToken rs1, regToken rs2, t]) s = .next { s with result := some (.ok w) } ∧
      w = (BitVec.ofInt 13 v).extractLsb 12 12 ++ (BitVec.ofInt 13 v).extractLsb 10 5 ++ rs2 ++ rs1
            ++ row.2.1 ++ (BitVec.ofInt 13 v).extractLsb 4 1
            ++ (BitVec.ofInt 13 v).extractLsb 11 11 ++ 0b1100011#7 ∧
      w &&& 0x0000707F#32 = row.2.2) ∧
    (∀ ops, ¬ ThreeShape ops →
      exec (row.1 ops) s = .next { s with result := some (.err .malformedOperands) }) ∧
    (∀ a b c : Text, Clean a → Clean b → Clean c → ¬ (NamesRegister a ∧ NamesRegister b) →
      exec (row.1 [sepToken a, sepToken b, c]) s =
        .next { s with result := some (.err .unknownRegister) }) ∧
    (∀ (rs1 rs2 : RegIndex) (t : Text), Clean t → ¬ LiteralWithin (-4096) 4095 t →
      exec (row.1 [regToken rs1, regToken rs2, t]) s =
        .next { s with result := some (.err .immediateOutOfRange) })

/-- R235: `jal rd, imm`, the offset in the RISC-V J layout (D25) and its bit 0 left out. -/
def Obligations.JalMeaning : Prop :=
  ∀ s : State, TablesBuilt s →
    (∀ (rd : RegIndex) (t : Text) (v : Int),
      parseInt t = some v → -1048576 ≤ v → v ≤ 1048575 →
      ∃ w : Word,
      exec (.jal [regToken rd, t]) s = .next { s with result := some (.ok w) } ∧
      w = (BitVec.ofInt 21 v).extractLsb 20 20 ++ (BitVec.ofInt 21 v).extractLsb 10 1
            ++ (BitVec.ofInt 21 v).extractLsb 11 11 ++ (BitVec.ofInt 21 v).extractLsb 19 12
            ++ rd ++ 0b1101111#7 ∧
      w &&& 0x0000007F#32 = 0x0000006F#32) ∧
    (∀ ops, ¬ TwoShape ops →
      exec (.jal ops) s = .next { s with result := some (.err .malformedOperands) }) ∧
    (∀ a b : Text, Clean a → Clean b → ¬ NamesRegister a →
      exec (.jal [sepToken a, b]) s = .next { s with result := some (.err .unknownRegister) }) ∧
    (∀ (rd : RegIndex) (t : Text), Clean t → ¬ LiteralWithin (-1048576) 1048575 t →
      exec (.jal [regToken rd, t]) s =
        .next { s with result := some (.err .immediateOutOfRange) })

/-- R240 to R242: `lui` and `auipc`, the operand the signed 20-bit field itself (D9). -/
def Obligations.UFormatMeanings : Prop :=
  ∀ s : State, TablesBuilt s → ∀ row ∈
    [(Instr.lui, 0b0110111#7, 0x00000037#32), (Instr.auipc, 0b0010111#7, 0x00000017#32)],
    (∀ (rd : RegIndex) (t : Text) (v : Int), parseInt t = some v → -524288 ≤ v → v ≤ 524287 →
      ∃ w : Word,
      exec (row.1 [regToken rd, t]) s = .next { s with result := some (.ok w) } ∧
      w = BitVec.ofInt 20 v ++ rd ++ row.2.1 ∧
      w &&& 0x0000007F#32 = row.2.2) ∧
    (∀ ops, ¬ TwoShape ops →
      exec (row.1 ops) s = .next { s with result := some (.err .malformedOperands) }) ∧
    (∀ a b : Text, Clean a → Clean b → ¬ NamesRegister a →
      exec (row.1 [sepToken a, b]) s = .next { s with result := some (.err .unknownRegister) }) ∧
    (∀ (rd : RegIndex) (t : Text), Clean t → ¬ LiteralWithin (-524288) 524287 t →
      exec (row.1 [regToken rd, t]) s =
        .next { s with result := some (.err .immediateOutOfRange) })

/-- R221, R236: for an odd branch or jump offset in range the encoder does exactly what it does for the
offset with bit 0 cleared, and raises no error (D10). -/
def Obligations.OddOffsetEncodesAsEven : Prop :=
  ∀ s : State, TablesBuilt s → ∀ (v : Int) (t t' : Text),
    parseInt t = some v → parseInt t' = some (v - 1) → v % 2 = 1 →
    (-4096 ≤ v → v ≤ 4095 → ∀ mk ∈ [Instr.beq, .bne, .blt, .bge, .bltu, .bgeu],
      ∀ rs1 rs2 : RegIndex,
        exec (mk [regToken rs1, regToken rs2, t]) s =
          exec (mk [regToken rs1, regToken rs2, t']) s ∧
        ∃ w, exec (mk [regToken rs1, regToken rs2, t]) s =
          .next { s with result := some (.ok w) }) ∧
    (-1048576 ≤ v → v ≤ 1048575 → ∀ rd : RegIndex,
      exec (.jal [regToken rd, t]) s = exec (.jal [regToken rd, t']) s ∧
      ∃ w, exec (.jal [regToken rd, t]) s = .next { s with result := some (.ok w) })

/-! Words and instructions. -/

/-- Words of spec/95_test_vectors.md, one for each layout, decode to the instruction they stand for. -/
def Obligations.WrittenWordsDecode : Prop :=
  decodeWord 0b0000000_00011_00010_000_00001_0110011#32 =
    .ok (.add [regToken 1, regToken 2, regName 3]) ∧
  decodeWord 0b000000001010_00001_000_00010_0010011#32 =
    .ok (.addi [regToken 2, regToken 1, intText 10]) ∧
  decodeWord 0b0100000_00101_00110_101_00101_0010011#32 =
    .ok (.srai [regToken 5, regToken 6, intText 5]) ∧
  decodeWord 0b0000000_00011_00001_010_00100_0100011#32 =
    .ok (.sw [regToken 3, storeToken (intText 4) (regName 1)]) ∧
  decodeWord 0b1_111111_00100_00011_001_1110_1_1100011#32 =
    .ok (.bne [regToken 3, regToken 4, intText (-4)]) ∧
  decodeWord 0b1_1111111100_1_11111111_00000_1101111#32 =
    .ok (.jal [regToken 0, intText (-8)]) ∧
  decodeWord 0b00010010001101000101_00101_0110111#32 =
    .ok (.lui [regToken 5, intText 74565])

/-- Decode and encode agree, from the instruction: for every well-formed instruction of all 37, with
every operand at every value the encoding admits (an even offset in formats B and J), decoding its word
gives it back. -/
def Obligations.DecodeOfEncodeIsIdentity : Prop :=
  ∀ i : Instr, i.wellFormed = true → i.evenOffset = true → decodeWord (encode i) = .ok i

/-- Decode and encode agree, from the word: what a word decodes to is well formed, has an even offset,
and encodes to that word. -/
def Obligations.EncodeOfDecodeIsIdentity : Prop :=
  ∀ (w : Word) (i : Instr), decodeWord w = .ok i →
    i.wellFormed = true ∧ i.evenOffset = true ∧ encode i = w

/-- R88 (a derived rule): no word matches the selectors of two different rows of the opcode table. -/
def Obligations.SelectorsArePairwiseDisjoint : Prop :=
  ∀ w : Word, (wordRows.filter fun r => r.selects w).length ≤ 1

/-- The machine's meaning agrees with the encoder written from the opcode table by shifting and masking
(R140): every well-formed instruction, presented as its canonical line, is answered with its word
(spec/95_test_vectors.md section 11, property 8). -/
def Obligations.CanonicalLineGivesItsWord : Prop :=
  ∀ (i : Instr) (s : State) (rest : List Text), TablesBuilt s → i.wellFormed = true →
    s.pending = i.line :: rest →
    step s = .next { s with pending := rest, result := some (.ok (encode i)) }

/-- R89 (a derived rule), R90: the words some line encodes to are exactly the words of the producible
set. -/
def Obligations.ProducedWordsAreExactlyTheTableWords : Prop :=
  ∀ w : Word,
    (∃ line : Text, encodeLine Tables.itab Tables.rtab line = .ok w) ↔ isProducible w = true

/-- R77 (a derived rule; spec/95_test_vectors.md S11 and property 2): the low seven bits of a produced
word are the opcode of its mnemonic's descriptor, for any tables; on tables as built, bits 1:0 are
0b11. -/
def Obligations.LowBitsAreTheOpcode : Prop :=
  ∀ (itab : List (Text × Descriptor)) (rtab : List (Text × RegIndex)) (line : Text) (w : Word),
    encodeLine itab rtab line = .ok w →
    ∃ m ops d, splitWs line = m :: ops ∧ itab.lookup m = some d ∧ w.extractLsb 6 0 = d.opcode ∧
      (itab = Tables.itab → w.extractLsb 1 0 = 0b11#2)

/-- spec/95_test_vectors.md S12 and property 4: the mnemonic of the line can be read back from the
produced word. -/
def Obligations.MnemonicReadsBack : Prop :=
  ∀ (line : Text) (w : Word), encodeLine Tables.itab Tables.rtab line = .ok w →
    ∃ m ops i, splitWs line = m :: ops ∧ decodeWord w = .ok i ∧ i.key = m

/-- R86 (a derived rule): the immediate read back from an assembled word is the operand for formats I,
S, U and the shift amounts, and the operand with bit 0 cleared for B and J. -/
def Obligations.ImmediatesReadBack : Prop :=
  ∀ (op : BitVec 7) (f3 : BitVec 3) (f7 : BitVec 7) (r₁ r₂ : RegIndex) (v : Int),
    (-2048 ≤ v → v ≤ 2047 → immediateOf .I (assembleI op f3 r₁ r₂ (enc 12 v)) = v) ∧
    (0 ≤ v → v ≤ 31 → immediateOf .shift (assembleI op f3 r₁ r₂ (f7 ++ uenc 5 v)) = v) ∧
    (-2048 ≤ v → v ≤ 2047 → immediateOf .S (assembleS op f3 r₁ r₂ (enc 12 v)) = v) ∧
    (-4096 ≤ v → v ≤ 4095 → immediateOf .B (assembleB op f3 r₁ r₂ (enc 13 v)) = v - v % 2) ∧
    (-1048576 ≤ v → v ≤ 1048575 → immediateOf .J (assembleJ op r₁ (enc 21 v)) = v - v % 2) ∧
    (-524288 ≤ v → v ≤ 524287 → immediateOf .U (assembleU op r₁ (enc 20 v)) = v)

/-- R288 (a derived clause): a canonical line has at most 21 characters, and some has 21; so
21 is the least MAX_LINE_LEN with which an implementation takes every canonical line. -/
def Obligations.CanonicalLinesHaveAtMost21Characters : Prop :=
  (∀ i : Instr, i.wellFormed = true → i.line.length ≤ 21) ∧
  (∃ i : Instr, i.wellFormed = true ∧ i.line.length = 21)

/-- The model's own (log entry 8): presenting an opcode-table word runs the instruction the word decoder
reads from it and nothing else, and on tables as built the encoder answers with that very word. -/
def Obligations.TableWordRunsItsInstruction : Prop :=
  ∀ (s : State) (n : Nat) (i : Instr), decodeTableWord 32 n = some i →
    step (s.withFetchWord 32 n) = exec i s ∧
    (TablesBuilt s →
      step (s.withFetchWord 32 n) = .next { s with result := some (.ok (BitVec.ofNat 32 n)) })
end

