-- ==== Sys2Proof/Laws/Assembly.lean ====
section
/-! SUPPORT. Two's complement (spec/00_scope.md R11) and the length of the rendering (R150). -/

namespace Sys2Proof.Machine

/-- `enc_N(v)` has the unsigned value `v mod 2^N` (R11). -/
theorem enc_toNat (N : Nat) (v : Int) : ((enc N v).toNat : Int) = v % 2 ^ N := by
  have h : (0 : Int) < 2 ^ N := by positivity
  simp only [enc, BitVec.toNat_ofInt, Nat.cast_pow, Nat.cast_ofNat]
  exact Int.toNat_of_nonneg (Int.emod_nonneg _ h.ne')

/-- For every `v` in range, `sext_N(enc_N(v)) = v` (R11). -/
theorem enc_toInt {N : Nat} {v : Int} (hN : 0 < N) (h₁ : -(2 : Int) ^ (N - 1) ≤ v)
    (h₂ : v < 2 ^ (N - 1)) : (enc N v).toInt = v := by
  obtain ⟨n, rfl⟩ : ∃ n, N = n + 1 := ⟨N - 1, by omega⟩
  simp only [Nat.add_sub_cancel] at h₁ h₂
  rw [enc, BitVec.toInt_ofInt]
  exact Int.bmod_eq_of_le_mul_two (by push_cast [pow_succ]; omega) (by push_cast [pow_succ]; omega)

/-- `uenc_N(v)` has the unsigned value `v` (R11). -/
theorem uenc_toNat {N : Nat} {v : Int} (h₁ : 0 ≤ v) (h₂ : v < 2 ^ N) :
    ((uenc N v).toNat : Int) = v := by
  obtain ⟨n, rfl⟩ := Int.eq_ofNat_of_zero_le h₁
  have : n < 2 ^ N := by exact_mod_cast h₂
  simp [uenc, Nat.mod_eq_of_lt this]

@[simp] theorem render_length (w : Word) : (render w).length = 32 := by simp [render]

/-- Character `k` of the rendering shows bit `31-k` (R150). -/
theorem render_getElem (w : Word) (k : Nat) (h : k < 32) :
    (render w)[k]'(by simpa using h) = if w.getLsbD (31 - k) then 0x31#8 else 0x30#8 := by
  simp [render]

end Sys2Proof.Machine
end

