-- ==== Sys2Proof/Laws/Text.lean ====
section
/-! SUPPORT. What the text functions of Machine/Text.lean compute: tokens, digits, literals and the
canonical spellings, each said once. -/

namespace Sys2Proof.Machine

/-- A token: not empty and free of whitespace (R12). -/
def IsToken (t : Text) : Prop := t ≠ [] ∧ ∀ c ∈ t, isWs c = false

/-! Tokens. -/

@[simp] theorem splitWs_nil : splitWs [] = [] := rfl

theorem splitWs_cons_ws {c : Byte} (h : isWs c = true) (cs : Text) :
    splitWs (c :: cs) = splitWs cs := by
  rw [splitWs.eq_def]; simp [h]

theorem splitWs_cons_sep {c d : Byte} (hc : isWs c = false) (hd : isWs d = true) (cs : Text) :
    splitWs (c :: d :: cs) = [c] :: splitWs cs := by
  rw [splitWs.eq_def]; simp [hc, hd, splitWs_cons_ws]

theorem splitWs_ne_nil {c : Byte} (hc : isWs c = false) (cs : Text) : splitWs (c :: cs) ≠ [] := by
  rw [splitWs.eq_def]
  simp only [hc, Bool.false_eq_true, if_false]
  cases cs with
  | nil => simp
  | cons d ds =>
    simp only
    split
    · simp
    · split <;> simp

theorem splitWs_cons_cons {c d : Byte} (hc : isWs c = false) (hd : isWs d = false) (cs : Text) :
    ∃ t ts, splitWs (d :: cs) = t :: ts ∧ splitWs (c :: d :: cs) = (c :: t) :: ts := by
  cases h : splitWs (d :: cs) with
  | nil => exact absurd h (splitWs_ne_nil hd cs)
  | cons t ts =>
    refine ⟨t, ts, rfl, ?_⟩
    rw [splitWs.eq_def]
    simp [hc, hd, h]

/-- Leading whitespace makes no token (R121). -/
theorem splitWs_ws_append (w a : Text) (hw : ∀ c ∈ w, isWs c = true) :
    splitWs (w ++ a) = splitWs a := by
  induction w with
  | nil => rfl
  | cons c cs ih =>
    rw [List.cons_append, splitWs_cons_ws (hw c (by simp)), ih fun d hd => hw d (by simp [hd])]

/-- A run of whitespace cuts: what stands before it and what stands after it are split alone (R121). -/
theorem splitWs_append_ws (a w b : Text) (hne : w ≠ []) (hw : ∀ c ∈ w, isWs c = true) :
    splitWs (a ++ w ++ b) = splitWs a ++ splitWs b := by
  induction a with
  | nil => simpa using splitWs_ws_append w b hw
  | cons c cs ih =>
    rw [List.append_assoc] at ih ⊢
    cases hc : isWs c with
    | true => rw [List.cons_append, splitWs_cons_ws hc, splitWs_cons_ws hc, ih]
    | false =>
      cases cs with
      | nil =>
        obtain ⟨d, ds, rfl⟩ := List.exists_cons_of_ne_nil hne
        rw [List.singleton_append, List.cons_append, splitWs_cons_sep hc (hw d (by simp)),
          splitWs_ws_append ds b fun e he => hw e (by simp [he])]
        simp [splitWs, hc]
      | cons d ds =>
        cases hd : isWs d with
        | true =>
          rw [List.cons_append, List.cons_append, splitWs_cons_sep hc hd, splitWs_cons_sep hc hd]
          rw [List.cons_append, splitWs_cons_ws hd, splitWs_cons_ws hd] at ih
          simp [ih]
        | false =>
          obtain ⟨t, ts, h₁, h₂⟩ := splitWs_cons_cons hc hd (ds ++ (w ++ b))
          obtain ⟨u, us, h₃, h₄⟩ := splitWs_cons_cons hc hd ds
          rw [List.cons_append, List.cons_append, h₂, h₄]
          rw [List.cons_append, h₁, h₃] at ih
          simpa using ih

/-- A token is its own only token. -/
theorem splitWs_token {t : Text} (ht : IsToken t) : splitWs t = [t] := by
  obtain ⟨hne, hws⟩ := ht
  induction t with
  | nil => exact absurd rfl hne
  | cons c cs ih =>
    have hc := hws c (by simp)
    cases cs with
    | nil => simp [splitWs, hc]
    | cons d ds =>
      have hd := hws d (by simp)
      obtain ⟨t, ts, h₁, h₂⟩ := splitWs_cons_cons hc hd ds
      rw [ih (by simp) fun e he => hws e (by simp [he])] at h₁
      obtain ⟨rfl, rfl⟩ : d :: ds = t ∧ [] = ts := by simpa using h₁
      exact h₂

/-- Every token `splitWs` gives is one (R121). -/
theorem isToken_of_mem_splitWs {a t : Text} (h : t ∈ splitWs a) : IsToken t := by
  induction a generalizing t with
  | nil => simp at h
  | cons c cs ih =>
    cases hc : isWs c with
    | true => exact ih (by rwa [splitWs_cons_ws hc] at h)
    | false =>
      cases cs with
      | nil =>
        simp [splitWs, hc] at h
        subst h
        exact ⟨by simp, by simpa using hc⟩
      | cons d ds =>
        cases hd : isWs d with
        | true =>
          rw [splitWs_cons_sep hc hd] at h
          rcases List.mem_cons.mp h with rfl | h
          · exact ⟨by simp, by simpa using hc⟩
          · exact ih (by rwa [splitWs_cons_ws hd])
        | false =>
          obtain ⟨u, us, h₁, h₂⟩ := splitWs_cons_cons hc hd ds
          rw [h₂] at h
          rcases List.mem_cons.mp h with rfl | h
          · have hu : IsToken u := ih (by simp [h₁])
            exact ⟨by simp, by simpa [hc] using hu.2⟩
          · exact ih (by simp [h₁, h])

/-- A token followed by a space is the first token. -/
theorem splitWs_token_space {t : Text} (ht : IsToken t) (b : Text) :
    splitWs (t ++ space :: b) = t :: splitWs b := by
  have h := splitWs_append_ws t [space] b (by simp) (by simp [space, isWs, whitespace])
  rw [splitWs_token ht] at h
  simpa using h

/-- Tokens joined with single spaces are split into the same tokens. -/
theorem splitWs_joined {t : Text} (ht : IsToken t) (ts : List Text) (h : ∀ u ∈ ts, IsToken u) :
    splitWs (t ++ ts.flatMap fun u => space :: u) = t :: ts := by
  induction ts generalizing t with
  | nil => simpa using splitWs_token ht
  | cons u us ih =>
    have hu := ih (h u (by simp)) fun v hv => h v (by simp [hv])
    simp only [List.flatMap_cons, List.cons_append]
    rw [splitWs_token_space ht, hu]

/-! Digits and literals. -/

theorem isDigit_digitChar {n : Nat} (h : n < 10) : isDigit (digitChar n) = true := by
  interval_cases n <;> decide

theorem digitValue_digitChar {n : Nat} (h : n < 10) : digitValue (digitChar n) = n := by
  interval_cases n <;> decide

/-- `natTextAux` writes its digits in front of what follows them. -/
theorem natTextAux_append (fuel n : Nat) (t : Text) :
    natTextAux fuel n t = natTextAux fuel n [] ++ t := by
  induction fuel generalizing n t with
  | zero => rfl
  | succ fuel ih =>
    by_cases hn : n < 10
    · simp [natTextAux, hn]
    · simp only [natTextAux, hn, if_false]
      rw [ih, ih _ [_]]
      simp

/-- Enough fuel is enough. -/
theorem natTextAux_fuel {f g n : Nat} (hf : n < f) (hg : n < g) (t : Text) :
    natTextAux f n t = natTextAux g n t := by
  induction f generalizing n g t with
  | zero => omega
  | succ f ih =>
    obtain ⟨g, rfl⟩ : ∃ k, g = k + 1 := ⟨g - 1, by omega⟩
    by_cases hn : n < 10
    · simp [natTextAux, hn]
    · simp only [natTextAux, hn, if_false]
      exact ih (by omega) (by omega) _

theorem natText_of_lt {n : Nat} (h : n < 10) : natText n = [digitChar n] := by
  simp [natText, natTextAux, h]

theorem natText_of_ge {n : Nat} (h : 10 ≤ n) :
    natText n = natText (n / 10) ++ [digitChar (n % 10)] := by
  have h' : ¬ n < 10 := by omega
  simp only [natText, natTextAux, h', if_false]
  rw [natTextAux_append, natTextAux_fuel (g := n / 10 + 1) (by omega) (by omega)]
  simp [natTextAux]

/-- Induction along the digits of a number, the last digit taken off. -/
theorem natText_induction {P : Nat → Prop} (small : ∀ n < 10, P n)
    (step : ∀ n, 10 ≤ n → P (n / 10) → P n) (n : Nat) : P n := by
  induction n using Nat.strong_induction_on with
  | _ n ih =>
    by_cases h : n < 10
    · exact small n h
    · exact step n (by omega) (ih _ (by omega))

theorem readDigits_append (acc : Nat) (a b : Text) :
    readDigits acc (a ++ b) = (readDigits acc a).bind fun n => readDigits n b := by
  induction a generalizing acc with
  | nil => rfl
  | cons c cs ih => by_cases h : isDigit c = true <;> simp [readDigits, h, ih]

/-- The numeral of a number reads back as the number. -/
theorem readDigits_natText (n : Nat) : readDigits 0 (natText n) = some n := by
  induction n using natText_induction with
  | small n h => simp [natText_of_lt h, readDigits, isDigit_digitChar h, digitValue_digitChar h]
  | step n h ih =>
    have h' : n % 10 < 10 := by omega
    rw [natText_of_ge h, readDigits_append, ih]
    simp [readDigits, isDigit_digitChar h', digitValue_digitChar h']
    omega

theorem natText_ne_nil (n : Nat) : natText n ≠ [] := by
  by_cases h : n < 10
  · simp [natText_of_lt h]
  · simp [natText_of_ge (by omega : 10 ≤ n)]

/-- Every character of a numeral is a digit. -/
theorem isDigit_of_mem_natText {n : Nat} {c : Byte} (h : c ∈ natText n) : isDigit c = true := by
  induction n using natText_induction with
  | small n hn =>
    rw [natText_of_lt hn] at h
    simpa [List.mem_singleton.mp h] using isDigit_digitChar hn
  | step n hn ih =>
    rw [natText_of_ge hn] at h
    rcases List.mem_append.mp h with h | h
    · exact ih h
    · simpa [List.mem_singleton.mp h] using isDigit_digitChar (by omega : n % 10 < 10)

/-- A number below `10^k` has at most `k` digits. -/
theorem natText_length_le {n k : Nat} (hk : 0 < k) (h : n < 10 ^ k) : (natText n).length ≤ k := by
  induction n using natText_induction generalizing k with
  | small n hn => simpa [natText_of_lt hn] using Nat.succ_le_of_lt hk
  | step n hn ih =>
    obtain ⟨k, rfl⟩ : ∃ j, k = j + 1 := ⟨k - 1, by omega⟩
    have hk0 : 0 < k := by
      rcases Nat.eq_zero_or_pos k with rfl | hk0
      · omega
      · exact hk0
    have := ih hk0 (by rw [Nat.pow_succ] at h; omega)
    simpa [natText_of_ge hn] using this

theorem isDigit_minus : isDigit minus = false := by decide

/-- The first character of a numeral is a digit and so is no `'-'`. -/
theorem natText_eq_cons (n : Nat) :
    ∃ c cs, natText n = c :: cs ∧ isDigit c = true ∧ c ≠ minus := by
  obtain ⟨c, cs, h⟩ := List.exists_cons_of_ne_nil (natText_ne_nil n)
  have hc : isDigit c = true := isDigit_of_mem_natText (n := n) (by simp [h])
  exact ⟨c, cs, h, hc, fun he => by simp [he, isDigit_minus] at hc⟩

theorem parseNat_natText (n : Nat) : parseNat (natText n) = some n := by
  have h := readDigits_natText n
  obtain ⟨c, cs, hc, -, -⟩ := natText_eq_cons n
  rw [hc] at h ⊢
  exact h

/-- The canonical numeral of an integer parses to the integer (R100, R104). -/
@[simp] theorem parseInt_intText (v : Int) : parseInt (intText v) = some v := by
  unfold intText
  split
  · simp only [parseInt, if_true, parseNat_natText, Option.map_some]
    congr 1
    omega
  · obtain ⟨c, cs, hc, -, hm⟩ := natText_eq_cons v.natAbs
    have h := parseNat_natText v.natAbs
    rw [hc] at h ⊢
    simp only [parseInt, hm, if_false, h, Option.map_some]
    congr 1
    omega

/-- The characters of a canonical numeral are digits and `'-'`. -/
theorem isDigit_or_minus_of_mem_intText {v : Int} {c : Byte} (h : c ∈ intText v) :
    isDigit c = true ∨ c = minus := by
  unfold intText at h
  split at h
  · rcases List.mem_cons.mp h with h | h
    · exact .inr h
    · exact .inl (isDigit_of_mem_natText h)
  · exact .inl (isDigit_of_mem_natText h)

theorem readDigits_all {acc n : Nat} {t : Text} (h : readDigits acc t = some n) :
    ∀ c ∈ t, isDigit c = true := by
  induction t generalizing acc with
  | nil => simp
  | cons c cs ih =>
    by_cases hc : isDigit c = true
    · simp only [readDigits, hc, if_true] at h
      simpa [hc] using ih h
    · simp [readDigits, hc] at h

/-- A text of digits has a value. -/
theorem readDigits_of_all (acc : Nat) {t : Text} (h : ∀ c ∈ t, isDigit c = true) :
    ∃ n, readDigits acc t = some n := by
  induction t generalizing acc with
  | nil => exact ⟨acc, rfl⟩
  | cons c cs ih =>
    obtain ⟨n, hn⟩ := ih (acc * 10 + digitValue c) fun d hd => h d (by simp [hd])
    exact ⟨n, by simp [readDigits, h c (by simp), hn]⟩

/-- What R104 says of a literal that is well formed: an optional `'-'` and one or more digits. -/
theorem parseInt_isSome_iff (t : Text) :
    (parseInt t).isSome = true ↔
      ∃ ds : Text, ds ≠ [] ∧ (∀ c ∈ ds, isDigit c = true) ∧ (t = ds ∨ t = minus :: ds) := by
  have nat : ∀ ds : Text, (parseNat ds).isSome = true ↔ ds ≠ [] ∧ ∀ c ∈ ds, isDigit c = true := by
    intro ds
    cases ds with
    | nil => simp [parseNat]
    | cons c cs =>
      constructor
      · intro h
        obtain ⟨n, hn⟩ := Option.isSome_iff_exists.mp h
        exact ⟨by simp, readDigits_all hn⟩
      · rintro ⟨-, h⟩
        obtain ⟨n, hn⟩ := readDigits_of_all 0 h
        simp [parseNat, hn]
  cases t with
  | nil => simp [parseInt]
  | cons c cs =>
    by_cases hc : c = minus
    · subst hc
      simp only [parseInt, if_true, Option.isSome_map, nat]
      constructor
      · rintro ⟨h₁, h₂⟩
        exact ⟨cs, h₁, h₂, .inr rfl⟩
      · rintro ⟨ds, h₁, h₂, h₃ | h₃⟩
        · have := h₂ minus (by simp [← h₃])
          simp [isDigit_minus] at this
        · obtain rfl : cs = ds := by simpa using h₃
          exact ⟨h₁, h₂⟩
    · simp only [parseInt, hc, if_false, Option.isSome_map, nat]
      constructor
      · rintro ⟨h₁, h₂⟩
        exact ⟨_, h₁, h₂, .inl rfl⟩
      · rintro ⟨ds, h₁, h₂, h₃ | h₃⟩
        · exact h₃ ▸ ⟨h₁, h₂⟩
        · simp [hc] at h₃

/-- Every character of a literal that parses is a digit or `'-'`. -/
theorem isDigit_or_minus_of_parseInt {t : Text} {v : Int} (h : parseInt t = some v) :
    ∀ c ∈ t, isDigit c = true ∨ c = minus := by
  obtain ⟨ds, -, hd, rfl | rfl⟩ := (parseInt_isSome_iff t).mp (by simp [h])
  · exact fun c hc => .inl (hd c hc)
  · intro c hc
    rcases List.mem_cons.mp hc with rfl | hc
    · exact .inr rfl
    · exact .inl (hd c hc)

/-! Register names. -/

theorem isWs_of_isDigit {c : Byte} (h : isDigit c = true) : isWs c = false := by
  revert h; revert c; decide

/-- A register name is a token. -/
theorem isToken_regName (r : RegIndex) : IsToken (regName r) := by
  refine ⟨by simp [regName], fun c hc => ?_⟩
  rcases List.mem_cons.mp hc with rfl | hc
  · decide
  · exact isWs_of_isDigit (isDigit_of_mem_natText hc)

/-- The 32 names are different (R24: the mapping is a bijection). -/
theorem regName_injective : Function.Injective regName := by
  intro a b h
  have h' : natText a.toNat = natText b.toNat := by simpa [regName] using h
  have := congrArg (readDigits 0) h'
  rw [readDigits_natText, readDigits_natText] at this
  exact BitVec.eq_of_toNat_eq (by simpa using this)

end Sys2Proof.Machine
end

