-- ==== Sys2Proof/Laws/Operands.lean ====
section
/-! SUPPORT. What each step of the operand grammar accepts, and the one error each raises
(spec/40_encode_pipeline.md R125 to R138). -/

namespace Sys2Proof.Machine

theorem comma_ne_lparen : comma ≠ lparen := by decide
theorem comma_ne_rparen : comma ≠ rparen := by decide
theorem lparen_ne_rparen : lparen ≠ rparen := by decide

theorem clean_iff {t : Text} : Clean t ↔ comma ∉ t ∧ lparen ∉ t ∧ rparen ∉ t := by
  simp only [Clean, hasPunctuation, List.any_eq_false]
  constructor
  · intro h
    refine ⟨fun hm => ?_, fun hm => ?_, fun hm => ?_⟩ <;> simpa using h _ hm
  · rintro ⟨h₁, h₂, h₃⟩ c hc
    simp only [Bool.or_eq_true, beq_iff_eq, not_or]
    exact ⟨⟨fun h => h₁ (h ▸ hc), fun h => h₂ (h ▸ hc)⟩, fun h => h₃ (h ▸ hc)⟩

theorem clean_of_isDigit_or_minus {t : Text} (h : ∀ c ∈ t, isDigit c = true ∨ c = minus) :
    Clean t := by
  rw [clean_iff]
  refine ⟨fun hm => ?_, fun hm => ?_, fun hm => ?_⟩ <;> exact absurd (h _ hm) (by decide)

/-- A literal that parses holds no punctuation. -/
theorem clean_of_parseInt {t : Text} {v : Int} (h : parseInt t = some v) : Clean t :=
  clean_of_isDigit_or_minus (isDigit_or_minus_of_parseInt h)

@[simp] theorem clean_intText (v : Int) : Clean (intText v) :=
  clean_of_parseInt (parseInt_intText v)

@[simp] theorem clean_regName (r : RegIndex) : Clean (regName r) := by revert r; decide

/-- `strip_sep` accepts exactly a clean text and its one comma (R126). -/
theorem stripSep_eq_ok_iff (t b : Text) : stripSep t = .ok b ↔ t = sepToken b ∧ Clean b := by
  constructor
  · intro h
    unfold stripSep at h
    split at h
    · rename_i hl
      split at h
      · cases h
      · rename_i hp
        cases h
        refine ⟨?_, by simpa using hp⟩
        obtain ⟨ys, rfl⟩ := List.getLast?_eq_some_iff.mp hl
        simp [sepToken]
    · cases h
  · rintro ⟨rfl, hb⟩
    simp [stripSep, sepToken, hb]

theorem stripSep_eq_error (t : Text) (e : ErrorKind) (h : stripSep t = .error e) :
    e = .malformedOperands := by
  unfold stripSep at h
  split at h
  · split at h
    · cases h; rfl
    · cases h
  · cases h; rfl

/-- `strip_last` accepts exactly the clean texts (R127). -/
theorem stripLast_eq_ok_iff (t b : Text) : stripLast t = .ok b ↔ t = b ∧ Clean b := by
  unfold stripLast
  constructor
  · intro h
    split at h
    · cases h
    · rename_i hp
      cases h
      exact ⟨rfl, by simpa using hp⟩
  · rintro ⟨rfl, hb⟩
    simp [hb]

theorem stripLast_eq_error (t : Text) (e : ErrorKind) (h : stripLast t = .error e) :
    e = .malformedOperands := by
  unfold stripLast at h
  split at h
  · cases h; rfl
  · cases h

/-- The two texts that R128 cuts out of `p(q)`, where `p` holds no `'('`. -/
theorem splitParen_pieces {p q : Text} (hp : lparen ∉ p) :
    (Except.ok ((storeToken p q).take ((storeToken p q).idxOf lparen),
        ((storeToken p q).drop ((storeToken p q).idxOf lparen + 1)).dropLast) :
      Except ErrorKind (Text × Text)) = .ok (p, q) := by
  have hi : (storeToken p q).idxOf lparen = p.length := by
    simp [storeToken, List.append_assoc, List.idxOf_append_of_notMem hp]
  have ht : (storeToken p q).take p.length = p := by simp [storeToken, List.append_assoc]
  have hd : (storeToken p q).drop (p.length + 1) = q ++ [rparen] := by
    have : storeToken p q = (p ++ [lparen]) ++ (q ++ [rparen]) := by simp [storeToken]
    rw [this, List.drop_left' (by simp)]
  rw [hi, ht, hd]
  simp

/-- `split_paren` accepts exactly a clean offset, `'('`, a clean base and `')'` (R128). -/
theorem splitParen_eq_ok_iff (t a b : Text) :
    splitParen t = .ok (a, b) ↔ t = storeToken a b ∧ Clean a ∧ Clean b := by
  constructor
  · intro h
    unfold splitParen at h
    split at h
    · rename_i hl
      split at h
      · rename_i hc
        obtain ⟨hlp, hrp, hcm⟩ := hc
        obtain ⟨u, rfl⟩ := List.getLast?_eq_some_iff.mp hl
        have hur : rparen ∉ u := by
          rw [List.count_append, List.count_singleton_self] at hrp
          exact List.count_eq_zero.mp (by omega)
        have hul : lparen ∈ u := by
          have : lparen ∈ u ++ [rparen] := List.count_pos_iff.mp (by omega)
          rcases List.mem_append.mp this with h | h
          · exact h
          · exact absurd (List.mem_singleton.mp h) (by decide)
        obtain ⟨p, q, rfl, hp⟩ := List.eq_append_cons_of_mem hul
        have hql : lparen ∉ q := by
          simp only [List.count_append, List.count_cons_self, List.append_assoc,
            List.count_eq_zero.mpr hp] at hlp
          exact List.count_eq_zero.mp (by omega)
        have hsplit : p ++ lparen :: q ++ [rparen] = storeToken p q := by simp [storeToken]
        rw [hsplit] at h ⊢
        rw [splitParen_pieces hp] at h
        obtain ⟨rfl, rfl⟩ : p = a ∧ q = b := by simpa using h
        simp only [List.mem_append, List.mem_cons, not_or] at hur hcm
        exact ⟨rfl, clean_iff.mpr ⟨hcm.1.1, hp, hur.1⟩, clean_iff.mpr ⟨hcm.1.2.2, hql, hur.2.2⟩⟩
      · cases h
    · cases h
  · rintro ⟨rfl, ha, hb⟩
    obtain ⟨ha₁, ha₂, ha₃⟩ := clean_iff.mp ha
    obtain ⟨hb₁, hb₂, hb₃⟩ := clean_iff.mp hb
    have hlast : (storeToken a b).getLast? = some rparen := by
      rw [storeToken, List.getLast?_concat]
    have hl : (storeToken a b).count lparen = 1 := by
      simp [storeToken, List.count_eq_zero.mpr ha₂, List.count_eq_zero.mpr hb₂,
        lparen_ne_rparen.symm]
    have hr : (storeToken a b).count rparen = 1 := by
      simp [storeToken, List.count_eq_zero.mpr ha₃, List.count_eq_zero.mpr hb₃, lparen_ne_rparen]
    have hc : comma ∉ storeToken a b := by
      simp [storeToken, ha₁, hb₁, comma_ne_lparen, comma_ne_rparen]
    have hp := splitParen_pieces (q := b) ha₂
    simp only [splitParen, hlast, hl, hr, hc, if_true, not_false_eq_true, and_self]
    rw [← hp]

theorem splitParen_eq_error (t : Text) (e : ErrorKind) (h : splitParen t = .error e) :
    e = .malformedOperands := by
  unfold splitParen at h
  split at h
  · split at h
    · cases h
    · cases h; rfl
  · cases h; rfl

/-! Sequencing: a computation that may raise an error, followed by another. -/

theorem bind_eq_ok_iff {α β : Type} (x : Except ErrorKind α) (f : α → Except ErrorKind β) (r : β) :
    (x >>= f) = .ok r ↔ ∃ a, x = .ok a ∧ f a = .ok r := by
  cases x <;> simp [bind, Except.bind]

theorem bind_eq_error_iff {α β : Type} (x : Except ErrorKind α) (f : α → Except ErrorKind β)
    (e : ErrorKind) :
    (x >>= f) = .error e ↔ x = .error e ∨ ∃ a, x = .ok a ∧ f a = .error e := by
  cases x <;> simp [bind, Except.bind]

theorem pure_eq_ok_iff {α : Type} (a r : α) :
    (pure a : Except ErrorKind α) = .ok r ↔ a = r := by
  simp [pure, Except.pure]

theorem pure_ne_error {α : Type} (a : α) (e : ErrorKind) :
    (pure a : Except ErrorKind α) ≠ .error e := by
  simp [pure, Except.pure]

/-! Step 2 of R120: which operand tokens each format's punctuation accepts. -/

theorem threeOperands_eq_ok_iff (ops : List Text) (a b c : Text) :
    threeOperands ops = .ok (a, b, c) ↔
      ops = [sepToken a, sepToken b, c] ∧ Clean a ∧ Clean b ∧ Clean c := by
  match ops with
  | [t₀, t₁, t₂] =>
    simp only [threeOperands, bind_eq_ok_iff, stripSep_eq_ok_iff, stripLast_eq_ok_iff,
      pure_eq_ok_iff]
    aesop
  | [] | [_] | [_, _] | _ :: _ :: _ :: _ :: _ => simp [threeOperands]

theorem threeOperands_eq_error (ops : List Text) (e : ErrorKind)
    (h : threeOperands ops = .error e) : e = .malformedOperands := by
  match ops with
  | [t₀, t₁, t₂] =>
    simp only [threeOperands, bind_eq_error_iff, pure_ne_error, and_false, exists_false,
      or_false] at h
    obtain h | ⟨-, -, h | ⟨-, -, h⟩⟩ := h
    · exact stripSep_eq_error _ _ h
    · exact stripSep_eq_error _ _ h
    · exact stripLast_eq_error _ _ h
  | [] | [_] | [_, _] | _ :: _ :: _ :: _ :: _ => cases h; rfl

theorem twoOperands_eq_ok_iff (ops : List Text) (a b : Text) :
    twoOperands ops = .ok (a, b) ↔ ops = [sepToken a, b] ∧ Clean a ∧ Clean b := by
  match ops with
  | [t₀, t₁] =>
    simp only [twoOperands, bind_eq_ok_iff, stripSep_eq_ok_iff, stripLast_eq_ok_iff,
      pure_eq_ok_iff]
    aesop
  | [] | [_] | _ :: _ :: _ :: _ => simp [twoOperands]

theorem twoOperands_eq_error (ops : List Text) (e : ErrorKind)
    (h : twoOperands ops = .error e) : e = .malformedOperands := by
  match ops with
  | [t₀, t₁] =>
    simp only [twoOperands, bind_eq_error_iff, pure_ne_error, and_false, exists_false,
      or_false] at h
    obtain h | ⟨-, -, h⟩ := h
    · exact stripSep_eq_error _ _ h
    · exact stripLast_eq_error _ _ h
  | [] | [_] | _ :: _ :: _ :: _ => cases h; rfl

theorem storeOperands_eq_ok_iff (ops : List Text) (a b c : Text) :
    storeOperands ops = .ok (a, b, c) ↔
      ops = [sepToken a, storeToken b c] ∧ Clean a ∧ Clean b ∧ Clean c := by
  match ops with
  | [t₀, t₁] =>
    simp only [storeOperands, bind_eq_ok_iff, stripSep_eq_ok_iff, Prod.exists,
      splitParen_eq_ok_iff, pure_eq_ok_iff]
    aesop
  | [] | [_] | _ :: _ :: _ :: _ => simp [storeOperands]

theorem storeOperands_eq_error (ops : List Text) (e : ErrorKind)
    (h : storeOperands ops = .error e) : e = .malformedOperands := by
  match ops with
  | [t₀, t₁] =>
    simp only [storeOperands, bind_eq_error_iff, pure_ne_error, and_false, exists_false,
      or_false] at h
    obtain h | ⟨-, -, h⟩ := h
    · exact stripSep_eq_error _ _ h
    · exact splitParen_eq_error _ _ h
  | [] | [_] | _ :: _ :: _ :: _ => cases h; rfl

/-! Steps 3 and 4 of R120. -/

theorem reg_eq_ok_iff (rtab : List (Text × RegIndex)) (t : Text) (r : RegIndex) :
    reg rtab t = .ok r ↔ rtab.lookup t = some r := by
  unfold reg
  cases rtab.lookup t <;> simp

theorem reg_eq_error_iff (rtab : List (Text × RegIndex)) (t : Text) (e : ErrorKind) :
    reg rtab t = .error e ↔ rtab.lookup t = none ∧ e = .unknownRegister := by
  unfold reg
  cases rtab.lookup t <;> simp [eq_comm]

theorem imm_eq_ok_iff (lo hi : Int) (t : Text) (v : Int) :
    imm lo hi t = .ok v ↔ parseInt t = some v ∧ lo ≤ v ∧ v ≤ hi := by
  unfold imm
  cases h : parseInt t with
  | none => simp
  | some u =>
    simp only [Option.some.injEq]
    split
    · constructor
      · intro h'; cases h'
      · rintro ⟨rfl, _, _⟩; omega
    · constructor
      · intro h'; cases h'; exact ⟨rfl, by omega, by omega⟩
      · rintro ⟨rfl, _, _⟩; rfl

theorem imm_eq_error (lo hi : Int) (t : Text) (e : ErrorKind) (h : imm lo hi t = .error e) :
    e = .immediateOutOfRange := by
  unfold imm at h
  split at h
  · cases h; rfl
  · split at h
    · cases h; rfl
    · cases h

end Sys2Proof.Machine
end

