-- ==== Sys2Proof/Laws/WellFormed.lean ====
section
/-! SUPPORT. What each check of well-formedness says: the tokens are the canonical spellings of
registers and of integers in range, and nothing else (spec/30_encoding.md R100, R102). -/

namespace Sys2Proof

open Machine

theorem any_range32_iff (p : RegIndex → Bool) :
    ((List.range 32).any fun n => p (BitVec.ofNat 5 n)) = true ↔ ∃ r, p r = true := by
  simp only [List.any_eq_true, List.mem_range]
  constructor
  · rintro ⟨n, -, h⟩
    exact ⟨_, h⟩
  · rintro ⟨r, h⟩
    exact ⟨r.toNat, r.isLt, by simpa using h⟩

theorem isRegisterName_iff (t : Text) : isRegisterName t = true ↔ ∃ r, t = regName r := by
  simpa [isRegisterName] using any_range32_iff fun r => t == regName r

theorem isRegisterSep_iff (t : Text) :
    isRegisterSep t = true ↔ ∃ r, t = sepToken (regName r) := by
  simpa [isRegisterSep] using any_range32_iff fun r => t == sepToken (regName r)

/-! Numerals. -/

theorem isPositiveNumeral_natText {n : Nat} (h : 0 < n) : isPositiveNumeral (natText n) = true := by
  induction n using natText_induction with
  | small n hn =>
    rw [natText_of_lt hn]
    interval_cases n <;> first | omega | decide
  | step n hn ih =>
    have ih := ih (by omega)
    have hd := isDigit_digitChar (by omega : n % 10 < 10)
    obtain ⟨c, cs, hc⟩ := List.exists_cons_of_ne_nil (natText_ne_nil (n / 10))
    rw [natText_of_ge hn]
    rw [hc] at ih ⊢
    simp only [isPositiveNumeral, Bool.and_eq_true, List.cons_append, List.all_append, List.all_cons,
      List.all_nil, Bool.and_true] at ih ⊢
    exact ⟨ih.1, ih.2, hd⟩

theorem isCanonicalNumeral_intText (v : Int) : isCanonicalNumeral (intText v) = true := by
  unfold intText
  split
  · simpa [isCanonicalNumeral] using isPositiveNumeral_natText (by omega : 0 < v.natAbs)
  · rcases Nat.eq_zero_or_pos v.natAbs with h | h
    · rw [h]; decide
    · obtain ⟨c, cs, hc, -, hm⟩ := natText_eq_cons v.natAbs
      have := isPositiveNumeral_natText h
      rw [hc] at this ⊢
      simp [isCanonicalNumeral, hm, this]

theorem digitChar_digitValue {c : Byte} (h : isDigit c = true) : digitChar (digitValue c) = c := by
  revert h; revert c; decide

theorem digitValue_lt {c : Byte} (h : isDigit c = true) : digitValue c < 10 := by
  revert h; revert c; decide

/-- A positive numeral is the canonical spelling of its own value, which is not 0. -/
theorem natText_of_isPositiveNumeral {t : Text} (h : isPositiveNumeral t = true) :
    ∃ n, 0 < n ∧ t = natText n := by
  induction t using List.reverseRecOn with
  | nil => simp [isPositiveNumeral] at h
  | append_singleton u c ih =>
    cases u with
    | nil =>
      simp only [List.nil_append, isPositiveNumeral, List.all_nil, Bool.and_true, Bool.and_eq_true,
        decide_eq_true_eq] at h
      have hd : isDigit c = true := by simp [isDigit]; omega
      refine ⟨digitValue c, by simp [digitValue]; omega, ?_⟩
      rw [natText_of_lt (digitValue_lt hd), digitChar_digitValue hd]
      rfl
    | cons d ds =>
      simp only [List.cons_append, isPositiveNumeral, List.all_append, List.all_cons, List.all_nil,
        Bool.and_true, Bool.and_eq_true] at h
      obtain ⟨n, hn, he⟩ := ih (by simp only [isPositiveNumeral, Bool.and_eq_true]; exact ⟨h.1, h.2.1⟩)
      have hc := h.2.2
      have hv := digitValue_lt hc
      refine ⟨n * 10 + digitValue c, by omega, ?_⟩
      rw [natText_of_ge (by omega), he, show (n * 10 + digitValue c) / 10 = n by omega,
        show (n * 10 + digitValue c) % 10 = digitValue c by omega, digitChar_digitValue hc]

/-- The canonical numerals are exactly the spellings `intText` writes. -/
theorem isCanonicalNumeral_iff (t : Text) : isCanonicalNumeral t = true ↔ ∃ v, t = intText v := by
  refine ⟨fun h => ?_, fun ⟨v, hv⟩ => hv ▸ isCanonicalNumeral_intText v⟩
  cases t with
  | nil => simp [isCanonicalNumeral] at h
  | cons c cs =>
    by_cases hc : c = minus
    · subst hc
      obtain ⟨n, hn, rfl⟩ := natText_of_isPositiveNumeral (t := cs) (by simpa [isCanonicalNumeral] using h)
      exact ⟨-(n : Int), by simp [intText, hn]⟩
    · simp only [isCanonicalNumeral, hc, if_false, Bool.or_eq_true, beq_iff_eq] at h
      rcases h with h | h
      · exact ⟨0, h ▸ by decide⟩
      · obtain ⟨n, -, he⟩ := natText_of_isPositiveNumeral h
        exact ⟨(n : Int), by simp [intText, he]⟩

theorem isImmediate_iff (lo hi : Int) (t : Text) :
    isImmediate lo hi t = true ↔ ∃ v, t = intText v ∧ lo ≤ v ∧ v ≤ hi := by
  simp only [isImmediate, Bool.and_eq_true, isCanonicalNumeral_iff]
  constructor
  · rintro ⟨⟨v, rfl⟩, h⟩
    exact ⟨v, rfl, by simpa using h⟩
  · rintro ⟨v, rfl, h⟩
    exact ⟨⟨v, rfl⟩, by simpa using h⟩

theorem lparen_notMem_intText (v : Int) : lparen ∉ intText v :=
  (clean_iff.mp (clean_intText v)).2.1

theorem takeWhile_storeToken {a : Text} (h : lparen ∉ a) (b : Text) :
    (storeToken a b).takeWhile (· != lparen) = a := by
  have ha : ∀ c ∈ a, (c != lparen) = true := fun c hc => by
    simp only [bne_iff_ne, ne_eq]; exact fun he => h (he ▸ hc)
  rw [storeToken, List.append_assoc, List.takeWhile_append_of_pos ha]
  simp

theorem dropWhile_storeToken {a : Text} (h : lparen ∉ a) (b : Text) :
    (storeToken a b).dropWhile (· != lparen) = lparen :: b ++ [rparen] := by
  have ha : ∀ c ∈ a, (c != lparen) = true := fun c hc => by
    simp only [bne_iff_ne, ne_eq]; exact fun he => h (he ▸ hc)
  rw [storeToken, List.append_assoc, List.dropWhile_append_of_pos ha]
  simp

theorem isOffsetBase_iff (lo hi : Int) (t : Text) :
    isOffsetBase lo hi t = true ↔
      ∃ v r, t = storeToken (intText v) (regName r) ∧ lo ≤ v ∧ v ≤ hi := by
  simp only [isOffsetBase, Bool.and_eq_true, isImmediate_iff]
  rw [any_range32_iff fun r => t == storeToken (t.takeWhile (· != lparen)) (regName r)]
  constructor
  · rintro ⟨⟨v, hv, h⟩, r, hr⟩
    rw [hv] at hr
    exact ⟨v, r, by simpa using hr, h⟩
  · rintro ⟨v, r, rfl, h⟩
    rw [takeWhile_storeToken (lparen_notMem_intText v)]
    exact ⟨⟨v, rfl, h⟩, r, by simp⟩

/-! The operand tokens of each format. -/

theorem wellFormedR_iff (ops : List Text) : wellFormedR ops = true ↔
    ∃ rd rs1 rs2, ops = [sepToken (regName rd), sepToken (regName rs1), regName rs2] := by
  match ops with
  | [t₀, t₁, t₂] =>
    simp only [wellFormedR, Bool.and_eq_true, isRegisterSep_iff, isRegisterName_iff, List.cons.injEq,
      and_true]
    aesop
  | [] | [_] | [_, _] | _ :: _ :: _ :: _ :: _ => simp [wellFormedR]

theorem wellFormedRegRegImm_iff (lo hi : Int) (ops : List Text) :
    wellFormedRegRegImm lo hi ops = true ↔
      ∃ r₀ r₁ v, ops = [sepToken (regName r₀), sepToken (regName r₁), intText v] ∧
        lo ≤ v ∧ v ≤ hi := by
  match ops with
  | [t₀, t₁, t₂] =>
    simp only [wellFormedRegRegImm, Bool.and_eq_true, isRegisterSep_iff, isImmediate_iff,
      List.cons.injEq, and_true]
    aesop
  | [] | [_] | [_, _] | _ :: _ :: _ :: _ :: _ => simp [wellFormedRegRegImm]

theorem wellFormedRegImm_iff (lo hi : Int) (ops : List Text) :
    wellFormedRegImm lo hi ops = true ↔
      ∃ r v, ops = [sepToken (regName r), intText v] ∧ lo ≤ v ∧ v ≤ hi := by
  match ops with
  | [t₀, t₁] =>
    simp only [wellFormedRegImm, Bool.and_eq_true, isRegisterSep_iff, isImmediate_iff,
      List.cons.injEq, and_true]
    aesop
  | [] | [_] | _ :: _ :: _ :: _ => simp [wellFormedRegImm]

theorem wellFormedS_iff (ops : List Text) : wellFormedS ops = true ↔
    ∃ rs2 rs1 v, ops = [sepToken (regName rs2), storeToken (intText v) (regName rs1)] ∧
      -2048 ≤ v ∧ v ≤ 2047 := by
  match ops with
  | [t₀, t₁] =>
    simp only [wellFormedS, Bool.and_eq_true, isRegisterSep_iff, isOffsetBase_iff, List.cons.injEq,
      and_true]
    aesop
  | [] | [_] | _ :: _ :: _ :: _ => simp [wellFormedS]

theorem lastIsEven_iff (ops : List Text) (t : Text) (v : Int) (h : ops.getLast? = some t)
    (hv : parseInt t = some v) : lastIsEven ops = true ↔ v % 2 = 0 := by
  simp [lastIsEven, h, hv]

end Sys2Proof
end

