-- ==== Sys2Proof/Laws/Decode.lean ====
section
/-! SUPPORT. The text side of the encoder and the line of an instruction: what the lenient readings of
Decode.lean give on canonical tokens, and that a canonical line is cut back into its tokens. -/

namespace Sys2Proof

open Machine

/-! Reading numbers. -/

theorem filter_isDigit_natText (n : Nat) : (natText n).filter isDigit = natText n :=
  List.filter_eq_self.mpr fun _ h => isDigit_of_mem_natText h

theorem readDigits_eq_foldl {acc : Nat} {t : Text} (h : ∀ c ∈ t, isDigit c = true) :
    readDigits acc t = some (t.foldl (fun n c => n * 10 + digitValue c) acc) := by
  induction t generalizing acc with
  | nil => rfl
  | cons c cs ih =>
    simp [readDigits, h c (by simp), ih fun d hd => h d (by simp [hd])]

theorem digitsIn_natText (n : Nat) : digitsIn (natText n) = n := by
  have h := readDigits_natText n
  rw [readDigits_eq_foldl fun _ h => isDigit_of_mem_natText h] at h
  rw [digitsIn, filter_isDigit_natText]
  exact Option.some.inj h

/-- Characters that are no digits do not change the number a text spells. -/
theorem digitsIn_append_of_not_digit (a b c : Text) (ha : ∀ d ∈ a, isDigit d = false)
    (hc : ∀ d ∈ c, isDigit d = false) : digitsIn (a ++ b ++ c) = digitsIn b := by
  have h₁ : a.filter isDigit = [] := List.filter_eq_nil_iff.mpr (by simpa using ha)
  have h₂ : c.filter isDigit = [] := List.filter_eq_nil_iff.mpr (by simpa using hc)
  simp [digitsIn, h₁, h₂]

theorem digitsIn_regName (r : RegIndex) : digitsIn (regName r) = r.toNat := by revert r; decide

theorem digitsIn_regSep (r : RegIndex) : digitsIn (sepToken (regName r)) = r.toNat := by
  revert r; decide

theorem digitsIn_regParen (r : RegIndex) :
    digitsIn (lparen :: regName r ++ [rparen]) = r.toNat := by revert r; decide

theorem signedIn_intText (v : Int) : signedIn (intText v) = v := by
  unfold intText
  split
  · have h := digitsIn_append_of_not_digit [minus] (natText v.natAbs) [] (by decide) (by simp)
    simp only [List.append_nil, List.singleton_append, digitsIn_natText] at h
    rw [signedIn, if_pos (by simp), h]
    omega
  · have h : minus ∉ natText v.natAbs := fun hm => by
      have := isDigit_of_mem_natText hm
      simp [isDigit_minus] at this
    rw [signedIn, if_neg (by simpa using h), digitsIn_natText]
    omega

/-! Tokens of a canonical line. -/

theorem isToken_sepToken {t : Text} (h : IsToken t) : IsToken (sepToken t) := by
  refine ⟨by simp [sepToken], fun c hc => ?_⟩
  rcases List.mem_append.mp hc with hc | hc
  · exact h.2 c hc
  · rw [List.mem_singleton.mp hc]; decide

theorem isToken_intText (v : Int) : IsToken (intText v) := by
  refine ⟨?_, fun c hc => ?_⟩
  · unfold intText; split <;> simp [natText_ne_nil]
  · rcases isDigit_or_minus_of_mem_intText hc with h | rfl
    · exact isWs_of_isDigit h
    · decide

theorem isToken_storeToken {a b : Text} (ha : IsToken a) (hb : IsToken b) :
    IsToken (storeToken a b) := by
  refine ⟨by simp [storeToken], fun c hc => ?_⟩
  simp only [storeToken, List.mem_append, List.mem_cons, List.not_mem_nil, or_false] at hc
  rcases hc with (hc | rfl | hc) | rfl
  · exact ha.2 c hc
  · decide
  · exact hb.2 c hc
  · decide

theorem isToken_key (i : Instr) : IsToken i.key := by
  cases i <;> simp only [Instr.key] <;> exact ⟨by decide, by decide⟩

/-- The operand tokens of a well-formed instruction are tokens. -/
theorem isToken_of_wellFormed {i : Instr} (h : i.wellFormed = true) : ∀ t ∈ i.ops, IsToken t := by
  have sep := fun r => isToken_sepToken (isToken_regName r)
  have three : ∀ {lo hi : Int} {ops : List Text}, wellFormedRegRegImm lo hi ops = true →
      ∀ t ∈ ops, IsToken t := by
    intro lo hi ops h
    obtain ⟨r₀, r₁, v, rfl, -⟩ := (wellFormedRegRegImm_iff lo hi ops).mp h
    simp [sep, isToken_intText]
  have two : ∀ {lo hi : Int} {ops : List Text}, wellFormedRegImm lo hi ops = true →
      ∀ t ∈ ops, IsToken t := by
    intro lo hi ops h
    obtain ⟨r, v, rfl, -⟩ := (wellFormedRegImm_iff lo hi ops).mp h
    simp [sep, isToken_intText]
  have regs : ∀ {ops : List Text}, wellFormedR ops = true → ∀ t ∈ ops, IsToken t := by
    intro ops h
    obtain ⟨rd, rs1, rs2, rfl⟩ := (wellFormedR_iff ops).mp h
    simp [sep, isToken_regName]
  have store : ∀ {ops : List Text}, wellFormedS ops = true → ∀ t ∈ ops, IsToken t := by
    intro ops h
    obtain ⟨rs2, rs1, v, rfl, -⟩ := (wellFormedS_iff ops).mp h
    simp [sep, isToken_storeToken (isToken_intText v) (isToken_regName rs1)]
  cases i <;> first | exact regs h | exact three h | exact two h | exact store h

end Sys2Proof
end

