-- ==== Sys2Proof/Laws/State.lean ====
section
/-! SUPPORT. One lemma per field for every update of the state: delivering a result writes `result` and
nothing else; presenting a line writes `pending` and nothing else. -/

namespace Sys2Proof.Machine

variable (s : State) (r : Result) (w : Word) (e : ErrorKind) (nbits n : Nat)

@[simp] theorem answer_itab : (answer r s).itab = s.itab := rfl
@[simp] theorem answer_rtab : (answer r s).rtab = s.rtab := rfl
@[simp] theorem answer_pending : (answer r s).pending = s.pending := rfl
@[simp] theorem answer_result : (answer r s).result = some r := rfl

@[simp] theorem emit_itab : (emit w s).itab = s.itab := rfl
@[simp] theorem emit_rtab : (emit w s).rtab = s.rtab := rfl
@[simp] theorem emit_pending : (emit w s).pending = s.pending := rfl
@[simp] theorem emit_result : (emit w s).result = some (.ok w) := rfl

@[simp] theorem raise_itab : (raise e s).itab = s.itab := rfl
@[simp] theorem raise_rtab : (raise e s).rtab = s.rtab := rfl
@[simp] theorem raise_pending : (raise e s).pending = s.pending := rfl
@[simp] theorem raise_result : (raise e s).result = some (.err e) := rfl

@[simp] theorem withFetchWord_itab : (s.withFetchWord nbits n).itab = s.itab := rfl
@[simp] theorem withFetchWord_rtab : (s.withFetchWord nbits n).rtab = s.rtab := rfl
@[simp] theorem withFetchWord_result : (s.withFetchWord nbits n).result = s.result := rfl
@[simp] theorem withFetchWord_pending :
    (s.withFetchWord nbits n).pending = tableWordLine nbits n :: s.pending := rfl

@[simp] theorem reset_itab : State.reset.itab = Tables.itab := rfl
@[simp] theorem reset_rtab : State.reset.rtab = Tables.rtab := rfl
@[simp] theorem reset_pending : State.reset.pending = [] := rfl
@[simp] theorem reset_result : State.reset.result = none := rfl

/-- A later answer replaces an earlier one. -/
@[simp] theorem answer_answer (r' : Result) : answer r' (answer r s) = answer r' s := rfl

end Sys2Proof.Machine
end

