-- ==== Sys2Proof/Laws/Ops.lean ====
section
/-! SUPPORT. What each shared operation can do, said once: when a branch of R120 gives a word and which
word, which errors it can raise, and the two shapes of an encode operation's end. -/

namespace Sys2Proof.Machine

variable (opcode : BitVec 7) (funct3 : BitVec 3) (funct7 : BitVec 7)
variable (rtab : List (Text × RegIndex)) (ops : List Text) (w : Word) (e : ErrorKind)

/-! The words (R71 to R76, R79). -/

theorem encodeR_eq_ok_iff :
    encodeR opcode funct3 funct7 rtab ops = .ok w ↔
      ∃ a b c, (ops = [sepToken a, sepToken b, c] ∧ Clean a ∧ Clean b ∧ Clean c) ∧
      ∃ rd, rtab.lookup a = some rd ∧ ∃ rs1, rtab.lookup b = some rs1 ∧
      ∃ rs2, rtab.lookup c = some rs2 ∧ assembleR opcode funct3 funct7 rd rs1 rs2 = w := by
  simp only [encodeR, bind_eq_ok_iff, Prod.exists, threeOperands_eq_ok_iff, reg_eq_ok_iff,
    pure_eq_ok_iff]

theorem encodeI_eq_ok_iff :
    encodeI opcode funct3 rtab ops = .ok w ↔
      ∃ a b c, (ops = [sepToken a, sepToken b, c] ∧ Clean a ∧ Clean b ∧ Clean c) ∧
      ∃ rd, rtab.lookup a = some rd ∧ ∃ rs1, rtab.lookup b = some rs1 ∧
      ∃ v, (parseInt c = some v ∧ -2048 ≤ v ∧ v ≤ 2047) ∧
        assembleI opcode funct3 rd rs1 (enc 12 v) = w := by
  simp only [encodeI, bind_eq_ok_iff, Prod.exists, threeOperands_eq_ok_iff, reg_eq_ok_iff,
    imm_eq_ok_iff, pure_eq_ok_iff]

theorem encodeIshift_eq_ok_iff :
    encodeIshift opcode funct3 funct7 rtab ops = .ok w ↔
      ∃ a b c, (ops = [sepToken a, sepToken b, c] ∧ Clean a ∧ Clean b ∧ Clean c) ∧
      ∃ rd, rtab.lookup a = some rd ∧ ∃ rs1, rtab.lookup b = some rs1 ∧
      ∃ v, (parseInt c = some v ∧ 0 ≤ v ∧ v ≤ 31) ∧
        assembleI opcode funct3 rd rs1 (funct7 ++ uenc 5 v) = w := by
  simp only [encodeIshift, bind_eq_ok_iff, Prod.exists, threeOperands_eq_ok_iff, reg_eq_ok_iff,
    imm_eq_ok_iff, pure_eq_ok_iff]

theorem encodeS_eq_ok_iff :
    encodeS opcode funct3 rtab ops = .ok w ↔
      ∃ a b c, (ops = [sepToken a, storeToken b c] ∧ Clean a ∧ Clean b ∧ Clean c) ∧
      ∃ rs2, rtab.lookup a = some rs2 ∧ ∃ rs1, rtab.lookup c = some rs1 ∧
      ∃ v, (parseInt b = some v ∧ -2048 ≤ v ∧ v ≤ 2047) ∧
        assembleS opcode funct3 rs2 rs1 (enc 12 v) = w := by
  simp only [encodeS, bind_eq_ok_iff, Prod.exists, storeOperands_eq_ok_iff, reg_eq_ok_iff,
    imm_eq_ok_iff, pure_eq_ok_iff]

theorem encodeB_eq_ok_iff :
    encodeB opcode funct3 rtab ops = .ok w ↔
      ∃ a b c, (ops = [sepToken a, sepToken b, c] ∧ Clean a ∧ Clean b ∧ Clean c) ∧
      ∃ rs1, rtab.lookup a = some rs1 ∧ ∃ rs2, rtab.lookup b = some rs2 ∧
      ∃ v, (parseInt c = some v ∧ -4096 ≤ v ∧ v ≤ 4095) ∧
        assembleB opcode funct3 rs1 rs2 (enc 13 v) = w := by
  simp only [encodeB, bind_eq_ok_iff, Prod.exists, threeOperands_eq_ok_iff, reg_eq_ok_iff,
    imm_eq_ok_iff, pure_eq_ok_iff]

theorem encodeJ_eq_ok_iff :
    encodeJ opcode rtab ops = .ok w ↔
      ∃ a b, (ops = [sepToken a, b] ∧ Clean a ∧ Clean b) ∧
      ∃ rd, rtab.lookup a = some rd ∧
      ∃ v, (parseInt b = some v ∧ -1048576 ≤ v ∧ v ≤ 1048575) ∧
        assembleJ opcode rd (enc 21 v) = w := by
  simp only [encodeJ, bind_eq_ok_iff, Prod.exists, twoOperands_eq_ok_iff, reg_eq_ok_iff,
    imm_eq_ok_iff, pure_eq_ok_iff]

theorem encodeU_eq_ok_iff :
    encodeU opcode rtab ops = .ok w ↔
      ∃ a b, (ops = [sepToken a, b] ∧ Clean a ∧ Clean b) ∧
      ∃ rd, rtab.lookup a = some rd ∧
      ∃ v, (parseInt b = some v ∧ -524288 ≤ v ∧ v ≤ 524287) ∧
        assembleU opcode rd (enc 20 v) = w := by
  simp only [encodeU, bind_eq_ok_iff, Prod.exists, twoOperands_eq_ok_iff, reg_eq_ok_iff,
    imm_eq_ok_iff, pure_eq_ok_iff]

/-! The errors: no branch raises `UnknownMnemonic` (R257). -/

theorem encodeOperands_ne_unknownMnemonic (d : Descriptor) :
    encodeOperands d rtab ops ≠ .error .unknownMnemonic := by
  have three : threeOperands ops ≠ .error .unknownMnemonic := fun h => by
    cases threeOperands_eq_error _ _ h
  have two : twoOperands ops ≠ .error .unknownMnemonic := fun h => by
    cases twoOperands_eq_error _ _ h
  have store : storeOperands ops ≠ .error .unknownMnemonic := fun h => by
    cases storeOperands_eq_error _ _ h
  have noImm : ∀ lo hi t, imm lo hi t ≠ .error .unknownMnemonic := fun _ _ _ h => by
    cases imm_eq_error _ _ _ _ h
  unfold encodeOperands
  split <;>
    simp only [encodeR, encodeI, encodeIshift, encodeS, encodeB, encodeJ, encodeU,
      bind_eq_error_iff, reg_eq_error_iff, pure_ne_error, three, two, store, noImm, reduceCtorEq,
      and_false, exists_false, or_false, ne_eq, not_false_eq_true]

/-! The encode operation of one mnemonic. -/

/-- `execMnemonic` always answers, and changes the result only. -/
theorem execMnemonic_eq_next (m : Text) (s : State) :
    ∃ r, execMnemonic m ops s = .next (answer r s) := by
  unfold execMnemonic emit raise
  split
  · exact ⟨_, rfl⟩
  · split <;> exact ⟨_, rfl⟩

/-- Once the descriptor is found, the result is that of its branch. -/
theorem execMnemonic_of_lookup {m : Text} {s : State} {d : Descriptor}
    (h : s.itab.lookup m = some d) :
    execMnemonic m ops s = .next (answer (resultOf (encodeOperands d s.rtab ops)) s) := by
  simp only [execMnemonic, h]
  cases encodeOperands d s.rtab ops <;> rfl

/-- A key that is not in the table raises `UnknownMnemonic` (R123). -/
theorem execMnemonic_of_lookup_none {m : Text} {s : State} (h : s.itab.lookup m = none) :
    execMnemonic m ops s = .next (raise .unknownMnemonic s) := by
  simp only [execMnemonic, h]

/-- A mnemonic encodes as its line does: the tokens of the line after the first are its operands. -/
theorem execMnemonic_eq_encodeLine {m line : Text} {s : State} (h : splitWs line = m :: ops) :
    execMnemonic m ops s = .next (answer (encodeLine s.itab s.rtab line) s) := by
  simp only [encodeLine, h]
  cases hd : s.itab.lookup m with
  | none => exact execMnemonic_of_lookup_none ops hd
  | some d => exact execMnemonic_of_lookup ops hd

theorem resultOf_eq_ok_iff (x : Except ErrorKind Word) : resultOf x = .ok w ↔ x = .ok w := by
  cases x <;> simp [resultOf]

theorem resultOf_eq_err_iff (x : Except ErrorKind Word) : resultOf x = .err e ↔ x = .error e := by
  cases x <;> simp [resultOf]

end Sys2Proof.Machine
end

