-- ==== Sys2Proof/Laws/PerInstr.lean ====
section
/-! SUPPORT. The two families of lemmas about every instruction as syntax. KeyNames: an instruction's
mnemonic names it. LineReads: an instruction whose operands are tokens is read back from its line. -/

namespace Sys2Proof.Laws.KeyNames

open Sys2Proof Sys2Proof.Machine

/-- The instruction's mnemonic and operand tokens name the instruction (R3, R21: at most one key
matches). -/
def Statement (i : Instr) : Prop := Instr.ofKey i.key i.ops = some i

theorem add (ops : List Text) : Statement (.add ops) := rfl
theorem sub (ops : List Text) : Statement (.sub ops) := rfl
theorem sll (ops : List Text) : Statement (.sll ops) := rfl
theorem slt (ops : List Text) : Statement (.slt ops) := rfl
theorem sltu (ops : List Text) : Statement (.sltu ops) := rfl
theorem xor (ops : List Text) : Statement (.xor ops) := rfl
theorem srl (ops : List Text) : Statement (.srl ops) := rfl
theorem sra (ops : List Text) : Statement (.sra ops) := rfl
theorem or (ops : List Text) : Statement (.or ops) := rfl
theorem and (ops : List Text) : Statement (.and ops) := rfl
theorem addi (ops : List Text) : Statement (.addi ops) := rfl
theorem slti (ops : List Text) : Statement (.slti ops) := rfl
theorem sltiu (ops : List Text) : Statement (.sltiu ops) := rfl
theorem xori (ops : List Text) : Statement (.xori ops) := rfl
theorem ori (ops : List Text) : Statement (.ori ops) := rfl
theorem andi (ops : List Text) : Statement (.andi ops) := rfl
theorem slli (ops : List Text) : Statement (.slli ops) := rfl
theorem srli (ops : List Text) : Statement (.srli ops) := rfl
theorem srai (ops : List Text) : Statement (.srai ops) := rfl
theorem jalr (ops : List Text) : Statement (.jalr ops) := rfl
theorem lb (ops : List Text) : Statement (.lb ops) := rfl
theorem lh (ops : List Text) : Statement (.lh ops) := rfl
theorem lw (ops : List Text) : Statement (.lw ops) := rfl
theorem lbu (ops : List Text) : Statement (.lbu ops) := rfl
theorem lhu (ops : List Text) : Statement (.lhu ops) := rfl
theorem beq (ops : List Text) : Statement (.beq ops) := rfl
theorem bne (ops : List Text) : Statement (.bne ops) := rfl
theorem blt (ops : List Text) : Statement (.blt ops) := rfl
theorem bge (ops : List Text) : Statement (.bge ops) := rfl
theorem bltu (ops : List Text) : Statement (.bltu ops) := rfl
theorem bgeu (ops : List Text) : Statement (.bgeu ops) := rfl
theorem jal (ops : List Text) : Statement (.jal ops) := rfl
theorem sb (ops : List Text) : Statement (.sb ops) := rfl
theorem sh (ops : List Text) : Statement (.sh ops) := rfl
theorem sw (ops : List Text) : Statement (.sw ops) := rfl
theorem lui (ops : List Text) : Statement (.lui ops) := rfl
theorem auipc (ops : List Text) : Statement (.auipc ops) := rfl

theorem statement_holds (i : Instr) : Statement i := by cases i <;> rfl

end Sys2Proof.Laws.KeyNames

namespace Sys2Proof.Laws.LineReads

open Sys2Proof Sys2Proof.Machine

/-- The machine's decoder reads the instruction back from its line. -/
def Statement (i : Instr) : Prop := (∀ t ∈ i.ops, IsToken t) → decodeLine i.line = .ok i

theorem statement_holds (i : Instr) : Statement i := by
  intro h
  have hs : splitWs i.line = i.key :: i.ops := splitWs_joined (isToken_key i) i.ops h
  have hk : Instr.ofKey i.key i.ops = some i := KeyNames.statement_holds i
  simp only [decodeLine, hs, hk]

theorem add (ops : List Text) : Statement (.add ops) := statement_holds _
theorem sub (ops : List Text) : Statement (.sub ops) := statement_holds _
theorem sll (ops : List Text) : Statement (.sll ops) := statement_holds _
theorem slt (ops : List Text) : Statement (.slt ops) := statement_holds _
theorem sltu (ops : List Text) : Statement (.sltu ops) := statement_holds _
theorem xor (ops : List Text) : Statement (.xor ops) := statement_holds _
theorem srl (ops : List Text) : Statement (.srl ops) := statement_holds _
theorem sra (ops : List Text) : Statement (.sra ops) := statement_holds _
theorem or (ops : List Text) : Statement (.or ops) := statement_holds _
theorem and (ops : List Text) : Statement (.and ops) := statement_holds _
theorem addi (ops : List Text) : Statement (.addi ops) := statement_holds _
theorem slti (ops : List Text) : Statement (.slti ops) := statement_holds _
theorem sltiu (ops : List Text) : Statement (.sltiu ops) := statement_holds _
theorem xori (ops : List Text) : Statement (.xori ops) := statement_holds _
theorem ori (ops : List Text) : Statement (.ori ops) := statement_holds _
theorem andi (ops : List Text) : Statement (.andi ops) := statement_holds _
theorem slli (ops : List Text) : Statement (.slli ops) := statement_holds _
theorem srli (ops : List Text) : Statement (.srli ops) := statement_holds _
theorem srai (ops : List Text) : Statement (.srai ops) := statement_holds _
theorem jalr (ops : List Text) : Statement (.jalr ops) := statement_holds _
theorem lb (ops : List Text) : Statement (.lb ops) := statement_holds _
theorem lh (ops : List Text) : Statement (.lh ops) := statement_holds _
theorem lw (ops : List Text) : Statement (.lw ops) := statement_holds _
theorem lbu (ops : List Text) : Statement (.lbu ops) := statement_holds _
theorem lhu (ops : List Text) : Statement (.lhu ops) := statement_holds _
theorem beq (ops : List Text) : Statement (.beq ops) := statement_holds _
theorem bne (ops : List Text) : Statement (.bne ops) := statement_holds _
theorem blt (ops : List Text) : Statement (.blt ops) := statement_holds _
theorem bge (ops : List Text) : Statement (.bge ops) := statement_holds _
theorem bltu (ops : List Text) : Statement (.bltu ops) := statement_holds _
theorem bgeu (ops : List Text) : Statement (.bgeu ops) := statement_holds _
theorem jal (ops : List Text) : Statement (.jal ops) := statement_holds _
theorem sb (ops : List Text) : Statement (.sb ops) := statement_holds _
theorem sh (ops : List Text) : Statement (.sh ops) := statement_holds _
theorem sw (ops : List Text) : Statement (.sw ops) := statement_holds _
theorem lui (ops : List Text) : Statement (.lui ops) := statement_holds _
theorem auipc (ops : List Text) : Statement (.auipc ops) := statement_holds _

end Sys2Proof.Laws.LineReads
end

