-- ==== Sys2Proof/Laws/Tables.lean ====
section
/-! SUPPORT. What the tables hold: RTAB is the bijection of R24, and ITAB has exactly the keys of the
37 instructions (spec/10_state.md R22 to R26). -/

namespace Sys2Proof.Machine

theorem lookup_mem {α : Type} {l : List (Text × α)} {k : Text} {v : α} (h : l.lookup k = some v) :
    (k, v) ∈ l := by
  obtain ⟨l₁, l₂, rfl, -⟩ := List.lookup_eq_some_iff.mp h
  simp

@[simp] theorem rtab_lookup_regName (r : RegIndex) : Tables.rtab.lookup (regName r) = some r := by
  revert r; decide

/-- The keys of RTAB are exactly the 32 canonical names (R24). -/
theorem rtab_lookup_eq_some_iff (t : Text) (r : RegIndex) :
    Tables.rtab.lookup t = some r ↔ t = regName r := by
  refine ⟨fun h => ?_, fun h => h ▸ rtab_lookup_regName r⟩
  have all : ∀ p ∈ Tables.rtab, p.1 = regName p.2 := by decide
  exact all _ (lookup_mem h)

end Sys2Proof.Machine
end

