-- ==== Sys2Proof/Laws/Step.lean ====
section
/-! SUPPORT. What `exec` and `step` can do, said once. -/

namespace Sys2Proof.Machine

/-- The 37 arms are the encode operation of the instruction's own mnemonic. -/
theorem exec_eq_execMnemonic (i : Instr) (s : State) : exec i s = execMnemonic i.key i.ops s := by
  cases i <;> rfl

/-- `exec` always answers, and changes the result only. -/
theorem exec_eq_next (i : Instr) (s : State) : ∃ r, exec i s = .next (answer r s) :=
  exec_eq_execMnemonic i s ▸ execMnemonic_eq_next i.ops i.key s

/-- With no line waiting a step changes nothing. -/
theorem step_idle {s : State} (h : s.pending = []) : step s = .next s := by
  simp [step, h]

/-- A waiting line leaves the input, and one result is delivered. -/
theorem step_eq_next {s : State} {line : Text} {rest : List Text} (h : s.pending = line :: rest) :
    ∃ r, step s = .next (answer r { s with pending := rest }) := by
  simp only [step, h]
  cases decodeLine line with
  | error e => exact ⟨_, rfl⟩
  | ok i => exact exec_eq_next i _

end Sys2Proof.Machine
end

