-- ==== Sys2Proof/Tests/Slice0.lean ====
section
/-! SUPPORT. The model's own tests. Every expected result is taken from the spec: the vectors of
spec/95_test_vectors.md (named in each docstring), the field lists of R71 to R76 and the values of R22.
Below them, for every statement that has hypotheses, a witness: a concrete state and operands that meet
them together, at the ends of the ranges where the statement has any. -/

namespace Sys2Proof.Tests

open Sys2Proof Sys2Proof.Machine

/-- A text written as a string. -/
def tok (s : String) : Text := ascii s.toList

/-- The encoder after reset with these lines waiting. -/
def waiting (lines : List Text) : State := { State.reset with pending := lines }

/-- The result one step gives for a line after reset. -/
def answerTo (line : String) : Option Result :=
  match step (waiting [tok line]) with
  | .next t => t.result
  | .fault _ => none
  | .refused _ => none

/-! Well-formedness: for each check an instruction that breaks it alone, and the ends of the ranges. -/

theorem test_wf_accepts_R :
    (Instr.add [tok "x1,", tok "x31,", tok "x0"]).wellFormed = true := by decide
theorem test_wf_refuses_token_count :
    (Instr.add [tok "x1,", tok "x2,"]).wellFormed = false := by decide
theorem test_wf_refuses_missing_comma :
    (Instr.add [tok "x1", tok "x2,", tok "x3"]).wellFormed = false := by decide
theorem test_wf_refuses_last_comma :
    (Instr.add [tok "x1,", tok "x2,", tok "x3,"]).wellFormed = false := by decide
theorem test_wf_refuses_register_32 :
    (Instr.add [tok "x1,", tok "x32,", tok "x3"]).wellFormed = false := by decide
theorem test_wf_refuses_register_leading_zero :
    (Instr.add [tok "x1,", tok "x2,", tok "x03"]).wellFormed = false := by decide
theorem test_wf_refuses_leading_zero :
    (Instr.addi [tok "x1,", tok "x2,", tok "007"]).wellFormed = false := by decide
theorem test_wf_refuses_minus_zero :
    (Instr.addi [tok "x1,", tok "x2,", tok "-0"]).wellFormed = false := by decide
theorem test_wf_refuses_plus :
    (Instr.addi [tok "x1,", tok "x2,", tok "+5"]).wellFormed = false := by decide
theorem test_wf_range_I :
    (Instr.addi [tok "x1,", tok "x2,", tok "-2048"]).wellFormed = true ∧
    (Instr.addi [tok "x1,", tok "x2,", tok "2047"]).wellFormed = true ∧
    (Instr.addi [tok "x1,", tok "x2,", tok "-2049"]).wellFormed = false ∧
    (Instr.addi [tok "x1,", tok "x2,", tok "2048"]).wellFormed = false := by decide
theorem test_wf_range_shift :
    (Instr.slli [tok "x1,", tok "x2,", tok "31"]).wellFormed = true ∧
    (Instr.slli [tok "x1,", tok "x2,", tok "32"]).wellFormed = false ∧
    (Instr.slli [tok "x1,", tok "x2,", tok "-1"]).wellFormed = false := by decide
theorem test_wf_range_B :
    (Instr.beq [tok "x1,", tok "x2,", tok "-4096"]).wellFormed = true ∧
    (Instr.beq [tok "x1,", tok "x2,", tok "4096"]).wellFormed = false := by decide
theorem test_wf_range_J :
    (Instr.jal [tok "x1,", tok "1048575"]).wellFormed = true ∧
    (Instr.jal [tok "x1,", tok "-1048577"]).wellFormed = false := by decide
theorem test_wf_range_U :
    (Instr.lui [tok "x1,", tok "524287"]).wellFormed = true ∧
    (Instr.lui [tok "x1,", tok "524288"]).wellFormed = false := by decide
theorem test_wf_store :
    (Instr.sw [tok "x3,", tok "-2048(x1)"]).wellFormed = true ∧
    (Instr.sw [tok "x3,", tok "2048(x1)"]).wellFormed = false ∧
    (Instr.sw [tok "x3,", tok "4(x32)"]).wellFormed = false ∧
    (Instr.sw [tok "x3,", tok "4(x1"]).wellFormed = false ∧
    (Instr.sw [tok "x3,", tok "(x1)"]).wellFormed = false := by decide
theorem test_even_offset :
    (Instr.beq [tok "x1,", tok "x2,", tok "8"]).evenOffset = true ∧
    (Instr.beq [tok "x1,", tok "x2,", tok "9"]).evenOffset = false := by decide

/-! Decoding: one word for each of the 37 instructions, written field by field from the layouts R71 to
R76 with the fixed fields of R22; the operands are those of the vector named
(spec/95_test_vectors.md). -/

/-- VR1. -/
theorem test_decode_add :
    decodeWord 0b0000000_00011_00010_000_00001_0110011#32 =
      .ok (.add [tok "x1,", tok "x2,", tok "x3"]) := by decide

/-- VR2. -/
theorem test_decode_sub :
    decodeWord 0b0100000_00111_00110_000_00101_0110011#32 =
      .ok (.sub [tok "x5,", tok "x6,", tok "x7"]) := by decide

/-- VR3. -/
theorem test_decode_sll :
    decodeWord 0b0000000_01100_01011_001_01010_0110011#32 =
      .ok (.sll [tok "x10,", tok "x11,", tok "x12"]) := by decide

/-- VR4. -/
theorem test_decode_slt :
    decodeWord 0b0000000_11101_11110_010_11111_0110011#32 =
      .ok (.slt [tok "x31,", tok "x30,", tok "x29"]) := by decide

/-- VR5. -/
theorem test_decode_sltu :
    decodeWord 0b0000000_01010_01001_011_01000_0110011#32 =
      .ok (.sltu [tok "x8,", tok "x9,", tok "x10"]) := by decide

/-- VR6. -/
theorem test_decode_xor :
    decodeWord 0b0000000_10001_10000_100_01111_0110011#32 =
      .ok (.xor [tok "x15,", tok "x16,", tok "x17"]) := by decide

/-- VR7. -/
theorem test_decode_srl :
    decodeWord 0b0000000_10100_10011_101_10010_0110011#32 =
      .ok (.srl [tok "x18,", tok "x19,", tok "x20"]) := by decide

/-- VR8. -/
theorem test_decode_sra :
    decodeWord 0b0100000_10111_10110_101_10101_0110011#32 =
      .ok (.sra [tok "x21,", tok "x22,", tok "x23"]) := by decide

/-- VR9. -/
theorem test_decode_or :
    decodeWord 0b0000000_11010_11001_110_11000_0110011#32 =
      .ok (.or [tok "x24,", tok "x25,", tok "x26"]) := by decide

/-- VR10. -/
theorem test_decode_and :
    decodeWord 0b0000000_00000_11100_111_11011_0110011#32 =
      .ok (.and [tok "x27,", tok "x28,", tok "x0"]) := by decide

/-- VI1. -/
theorem test_decode_addi :
    decodeWord 0b000000001010_00001_000_00010_0010011#32 =
      .ok (.addi [tok "x2,", tok "x1,", tok "10"]) := by decide

/-- VI8. -/
theorem test_decode_slti :
    decodeWord 0b111111111001_00110_010_00101_0010011#32 =
      .ok (.slti [tok "x5,", tok "x6,", tok "-7"]) := by decide

/-- VI9. -/
theorem test_decode_sltiu :
    decodeWord 0b011111111111_01000_011_00111_0010011#32 =
      .ok (.sltiu [tok "x7,", tok "x8,", tok "2047"]) := by decide

/-- VI12. -/
theorem test_decode_xori :
    decodeWord 0b111111111111_01010_100_01001_0010011#32 =
      .ok (.xori [tok "x9,", tok "x10,", tok "-1"]) := by decide

/-- VI13. -/
theorem test_decode_ori :
    decodeWord 0b000011111111_01100_110_01011_0010011#32 =
      .ok (.ori [tok "x11,", tok "x12,", tok "255"]) := by decide

/-- VI14. -/
theorem test_decode_andi :
    decodeWord 0b000000001111_01110_111_01101_0010011#32 =
      .ok (.andi [tok "x13,", tok "x14,", tok "15"]) := by decide

/-- VH1. -/
theorem test_decode_slli :
    decodeWord 0b0000000_00000_00010_001_00001_0010011#32 =
      .ok (.slli [tok "x1,", tok "x2,", tok "0"]) := by decide

/-- VH4. -/
theorem test_decode_srli :
    decodeWord 0b0000000_00001_00100_101_00011_0010011#32 =
      .ok (.srli [tok "x3,", tok "x4,", tok "1"]) := by decide

/-- VH6. -/
theorem test_decode_srai :
    decodeWord 0b0100000_00000_00110_101_00101_0010011#32 =
      .ok (.srai [tok "x5,", tok "x6,", tok "0"]) := by decide

/-- VI15. -/
theorem test_decode_jalr :
    decodeWord 0b000000000000_00101_000_00001_1100111#32 =
      .ok (.jalr [tok "x1,", tok "x5,", tok "0"]) := by decide

/-- VI21. -/
theorem test_decode_lb :
    decodeWord 0b000000000000_00010_000_00001_0000011#32 =
      .ok (.lb [tok "x1,", tok "x2,", tok "0"]) := by decide

/-- VI22. -/
theorem test_decode_lh :
    decodeWord 0b000000000010_00100_001_00011_0000011#32 =
      .ok (.lh [tok "x3,", tok "x4,", tok "2"]) := by decide

/-- VI23. -/
theorem test_decode_lw :
    decodeWord 0b000000001000_00010_010_00001_0000011#32 =
      .ok (.lw [tok "x1,", tok "x2,", tok "8"]) := by decide

/-- VI26. -/
theorem test_decode_lbu :
    decodeWord 0b011111111111_01000_100_00111_0000011#32 =
      .ok (.lbu [tok "x7,", tok "x8,", tok "2047"]) := by decide

/-- VI27. -/
theorem test_decode_lhu :
    decodeWord 0b100000000000_01010_101_01001_0000011#32 =
      .ok (.lhu [tok "x9,", tok "x10,", tok "-2048"]) := by decide

/-- VB1. -/
theorem test_decode_beq :
    decodeWord 0b0_000000_00010_00001_000_0100_0_1100011#32 =
      .ok (.beq [tok "x1,", tok "x2,", tok "8"]) := by decide

/-- VB3. -/
theorem test_decode_bne :
    decodeWord 0b1_111111_00100_00011_001_1110_1_1100011#32 =
      .ok (.bne [tok "x3,", tok "x4,", tok "-4"]) := by decide

/-- VB4. -/
theorem test_decode_blt :
    decodeWord 0b0_111111_00110_00101_100_1111_1_1100011#32 =
      .ok (.blt [tok "x5,", tok "x6,", tok "4094"]) := by decide

/-- VB5. -/
theorem test_decode_bge :
    decodeWord 0b1_000000_01000_00111_101_0000_0_1100011#32 =
      .ok (.bge [tok "x7,", tok "x8,", tok "-4096"]) := by decide

/-- VB6. -/
theorem test_decode_bltu :
    decodeWord 0b0_000000_01010_01001_110_0000_1_1100011#32 =
      .ok (.bltu [tok "x9,", tok "x10,", tok "2048"]) := by decide

/-- VB7. -/
theorem test_decode_bgeu :
    decodeWord 0b1_111111_01100_01011_111_1111_1_1100011#32 =
      .ok (.bgeu [tok "x11,", tok "x12,", tok "-2"]) := by decide

/-- VJ1. -/
theorem test_decode_jal :
    decodeWord 0b0_0000001000_0_00000000_00001_1101111#32 =
      .ok (.jal [tok "x1,", tok "16"]) := by decide

/-- VS1. -/
theorem test_decode_sb :
    decodeWord 0b0000000_00001_00010_000_00000_0100011#32 =
      .ok (.sb [tok "x1,", tok "0(x2)"]) := by decide

/-- VS2. -/
theorem test_decode_sh :
    decodeWord 0b0000000_00011_00100_001_00010_0100011#32 =
      .ok (.sh [tok "x3,", tok "2(x4)"]) := by decide

/-- VS3. -/
theorem test_decode_sw :
    decodeWord 0b0000000_00011_00001_010_00100_0100011#32 =
      .ok (.sw [tok "x3,", tok "4(x1)"]) := by decide

/-- VU1. -/
theorem test_decode_lui :
    decodeWord 0b00000000000000000001_00001_0110111#32 =
      .ok (.lui [tok "x1,", tok "1"]) := by decide

/-- VU10. -/
theorem test_decode_auipc :
    decodeWord 0b00000000000000000000_00001_0010111#32 =
      .ok (.auipc [tok "x1,", tok "0"]) := by decide

/-! Encoding: one step on the line of another vector of the same mnemonic, where there is one. -/

/-- VR12. -/
theorem test_step_add : answerTo "add x31, x31, x31" = some (.ok 0x01FF8FB3#32) := by decide

/-- VR13. -/
theorem test_step_sub : answerTo "sub x1, x1, x1" = some (.ok 0x401080B3#32) := by decide

/-- VR3. -/
theorem test_step_sll : answerTo "sll x10, x11, x12" = some (.ok 0x00C59533#32) := by decide

/-- VR4. -/
theorem test_step_slt : answerTo "slt x31, x30, x29" = some (.ok 0x01DF2FB3#32) := by decide

/-- VR5. -/
theorem test_step_sltu : answerTo "sltu x8, x9, x10" = some (.ok 0x00A4B433#32) := by decide

/-- VR6. -/
theorem test_step_xor : answerTo "xor x15, x16, x17" = some (.ok 0x011847B3#32) := by decide

/-- VR7. -/
theorem test_step_srl : answerTo "srl x18, x19, x20" = some (.ok 0x0149D933#32) := by decide

/-- VR8. -/
theorem test_step_sra : answerTo "sra x21, x22, x23" = some (.ok 0x417B5AB3#32) := by decide

/-- VR9. -/
theorem test_step_or : answerTo "or x24, x25, x26" = some (.ok 0x01ACEC33#32) := by decide

/-- VR10. -/
theorem test_step_and : answerTo "and x27, x28, x0" = some (.ok 0x000E7DB3#32) := by decide

/-- VI35. -/
theorem test_step_addi : answerTo "addi x1, x2, -0" = some (.ok 0x00010093#32) := by decide

/-- VI8. -/
theorem test_step_slti : answerTo "slti x5, x6, -7" = some (.ok 0xFF932293#32) := by decide

/-- VI10. -/
theorem test_step_sltiu : answerTo "sltiu x7, x8, -1" = some (.ok 0xFFF43393#32) := by decide

/-- VI12. -/
theorem test_step_xori : answerTo "xori x9, x10, -1" = some (.ok 0xFFF54493#32) := by decide

/-- VI13. -/
theorem test_step_ori : answerTo "ori x11, x12, 255" = some (.ok 0x0FF66593#32) := by decide

/-- VI14. -/
theorem test_step_andi : answerTo "andi x13, x14, 15" = some (.ok 0x00F77693#32) := by decide

/-- VH3. -/
theorem test_step_slli : answerTo "slli x1, x2, 31" = some (.ok 0x01F11093#32) := by decide

/-- VH5. -/
theorem test_step_srli : answerTo "srli x3, x4, 31" = some (.ok 0x01F25193#32) := by decide

/-- VH8. -/
theorem test_step_srai : answerTo "srai x5, x6, 31" = some (.ok 0x41F35293#32) := by decide

/-- VI17. -/
theorem test_step_jalr : answerTo "jalr x1, x2, -4" = some (.ok 0xFFC100E7#32) := by decide

/-- P3 line 9. -/
theorem test_step_lb : answerTo "lb x14, x11, -1" = some (.ok 0xFFF58703#32) := by decide

/-- VI22. -/
theorem test_step_lh : answerTo "lh x3, x4, 2" = some (.ok 0x00221183#32) := by decide

/-- VI25. -/
theorem test_step_lw : answerTo "lw x1, x2, 3" = some (.ok 0x00312083#32) := by decide

/-- VI26. -/
theorem test_step_lbu : answerTo "lbu x7, x8, 2047" = some (.ok 0x7FF44383#32) := by decide

/-- VI27. -/
theorem test_step_lhu : answerTo "lhu x9, x10, -2048" = some (.ok 0x80055483#32) := by decide

/-- VB12. -/
theorem test_step_beq : answerTo "beq x1, x2, 4095" = some (.ok 0x7E208FE3#32) := by decide

/-- VB11. -/
theorem test_step_bne : answerTo "bne x1, x2, -2048" = some (.ok 0x802090E3#32) := by decide

/-- VB4. -/
theorem test_step_blt : answerTo "blt x5, x6, 4094" = some (.ok 0x7E62CFE3#32) := by decide

/-- VB5. -/
theorem test_step_bge : answerTo "bge x7, x8, -4096" = some (.ok 0x8083D063#32) := by decide

/-- VB6. -/
theorem test_step_bltu : answerTo "bltu x9, x10, 2048" = some (.ok 0x00A4E0E3#32) := by decide

/-- VB7. -/
theorem test_step_bgeu : answerTo "bgeu x11, x12, -2" = some (.ok 0xFEC5FFE3#32) := by decide

/-- VJ8. -/
theorem test_step_jal : answerTo "jal x1, 4096" = some (.ok 0x000010EF#32) := by decide

/-- VS8. -/
theorem test_step_sb : answerTo "sb x7, 32(x8)" = some (.ok 0x02740023#32) := by decide

/-- P3 line 6. -/
theorem test_step_sh : answerTo "sh x12, 6(x11)" = some (.ok 0x00C59323#32) := by decide

/-- VS10. -/
theorem test_step_sw : answerTo "sw x1, -1(x2)" = some (.ok 0xFE112FA3#32) := by decide

/-- VU5. -/
theorem test_step_lui : answerTo "lui x31, -524288" = some (.ok 0x80000FB7#32) := by decide

/-- VU14. -/
theorem test_step_auipc : answerTo "auipc x31, -524288" = some (.ok 0x80000F97#32) := by decide

/-! Words that are no produced word are rejected by name (R89, U21). -/

theorem test_decode_rejects :
    decodeWord 0x00000000#32 = .error .notBaseLength ∧
    decodeWord 0xFFFFFFFF#32 = .error .unknownOpcode ∧
    decodeWord 0x00001067#32 = .error .unknownFunction ∧
    decodeWord 0x02000033#32 = .error .unknownFunction := by decide

/-! The second encoder, on the source's own examples S1, S2, S4 and one vector of each other layout. -/

theorem test_encode_words :
    encode (.add [tok "x1,", tok "x2,", tok "x3"]) = 0x003100B3#32 ∧
    encode (.addi [tok "x2,", tok "x1,", tok "10"]) = 0x00A08113#32 ∧
    encode (.srai [tok "x5,", tok "x6,", tok "5"]) = 0x40535293#32 ∧
    encode (.sw [tok "x3,", tok "4(x1)"]) = 0x0030A223#32 ∧
    encode (.bne [tok "x3,", tok "x4,", tok "-4"]) = 0xFE419EE3#32 ∧
    encode (.jal [tok "x0,", tok "-8"]) = 0xFF9FF06F#32 ∧
    encode (.lui [tok "x5,", tok "74565"]) = 0x123452B7#32 := by decide

/-! Grammar and errors (spec/95_test_vectors.md section 9, and the error vectors of sections 3 to 8). -/

/-- VE1. -/
theorem test_error_empty_line : answerTo "" = some (.err .unknownMnemonic) := by decide

/-- VE3. -/
theorem test_error_blank_line : answerTo "\t\r\n" = some (.err .unknownMnemonic) := by decide

/-- VE4. -/
theorem test_error_unknown_mnemonic :
    answerTo "foo x1, x2, x3" = some (.err .unknownMnemonic) := by decide

/-- VE5. -/
theorem test_error_upper_case :
    answerTo "ADD x1, x2, x3" = some (.err .unknownMnemonic) := by decide

/-- VE7. -/
theorem test_error_mnemonic_comma :
    answerTo "add, x1, x2, x3" = some (.err .unknownMnemonic) := by decide

/-- VE14. -/
theorem test_error_count_before_register :
    answerTo "add x99, x2" = some (.err .malformedOperands) := by decide

/-- VE16. -/
theorem test_error_run_together :
    answerTo "add x1,x2,x3" = some (.err .malformedOperands) := by decide

/-- VE19. -/
theorem test_error_missing_comma :
    answerTo "add x1 x2, x3" = some (.err .malformedOperands) := by decide

/-- VE21. -/
theorem test_error_double_comma :
    answerTo "add x1,, x2, x3" = some (.err .malformedOperands) := by decide

/-- VE23. -/
theorem test_error_last_comma :
    answerTo "add x1, x2, x3," = some (.err .malformedOperands) := by decide

/-- VE24. -/
theorem test_error_last_paren :
    answerTo "add x1, x2, (x3)" = some (.err .malformedOperands) := by decide

/-- VI30. -/
theorem test_error_load_parenthesis :
    answerTo "lw x1, 8(x2)" = some (.err .malformedOperands) := by decide

/-- VS15. -/
theorem test_error_store_unclosed :
    answerTo "sw x3, 4(x1" = some (.err .malformedOperands) := by decide

/-- VS19. -/
theorem test_error_store_double_close :
    answerTo "sw x3, 4(x1))" = some (.err .malformedOperands) := by decide

/-- VE25. -/
theorem test_error_empty_register :
    answerTo "add , x2, x3" = some (.err .unknownRegister) := by decide

/-- VE29. -/
theorem test_error_abi_name : answerTo "add a0, x2, x3" = some (.err .unknownRegister) := by decide

/-- VE27. -/
theorem test_error_leading_zero_register :
    answerTo "add x1, x2, x03" = some (.err .unknownRegister) := by decide

/-- VS14. -/
theorem test_error_store_empty_base :
    answerTo "sw x3, 4()" = some (.err .unknownRegister) := by decide

/-- VE32. -/
theorem test_error_register_before_immediate :
    answerTo "addi x1, x99, 5000" = some (.err .unknownRegister) := by decide

/-- VS21. -/
theorem test_error_base_before_offset :
    answerTo "sw x3, 5000(y)" = some (.err .unknownRegister) := by decide

/-- VS13. -/
theorem test_error_store_empty_offset :
    answerTo "sw x3, (x1)" = some (.err .immediateOutOfRange) := by decide

/-- VI37. -/
theorem test_error_hexadecimal :
    answerTo "addi x1, x2, 0x10" = some (.err .immediateOutOfRange) := by decide

/-- VH11. -/
theorem test_error_shift_precombined :
    answerTo "srai x5, x6, 1029" = some (.err .immediateOutOfRange) := by decide

/-- VU8. -/
theorem test_error_lui_unsigned :
    answerTo "lui x1, 1048575" = some (.err .immediateOutOfRange) := by decide

/-- VI38. -/
theorem test_error_long_literal :
    answerTo "addi x1, x2, 99999999999999999999999" = some (.err .immediateOutOfRange) := by decide

/-- VJ16. -/
theorem test_error_label : answerTo "jal x1, loop" = some (.err .immediateOutOfRange) := by decide

/-- VE35: any run of whitespace separates tokens. -/
theorem test_spacing : answerTo "  sw\tx3,  4(x1) \r\n" = some (.ok 0x0030A223#32) := by decide

/-- VI34: leading zeros are decimal. -/
theorem test_leading_zeros : answerTo "addi x1, x2, 007" = some (.ok 0x00710093#32) := by decide

/-- S3 recomputed (C1): not the source's literal. -/
theorem test_jal_recomputed : answerTo "jal x1, 16" = some (.ok 0x010000EF#32) := by decide

/-- VB2 (D10): an odd offset gives the word of the even one below it. -/
theorem test_odd_branch : answerTo "beq x1, x2, 9" = some (.ok 0x00208463#32) := by decide

/-- S1: the rendering. -/
theorem test_render : render 0x003100B3#32 = tok "00000000001100010000000010110011" := by decide

/-- P4, lines 2 and 6: a failing line before it does not change a line's result. -/
theorem test_batch :
    (match Host.Core.run core 2 (waiting [tok "foo x1, x2, x3", tok "add x1, x2, x3"]) with
      | .next t => t.result
      | .fault _ => none
      | .refused _ => none) = some (.ok 0x003100B3#32) := by decide

/-- A word of the opcode table as the first thing after reset: `sub` with all operand bits zero. -/
theorem test_table_word :
    (match step (State.reset.withFetchWord 32 0x40000033) with
      | .next t => t.result
      | .fault _ => none
      | .refused _ => none) = some (.ok 0x40000033#32) := by decide

/-! Witnesses: concrete values that meet a statement's hypotheses. -/

theorem reset_built : TablesBuilt State.reset := ⟨rfl, rfl⟩

theorem waiting_built (l : List Text) : TablesBuilt (waiting l) := ⟨rfl, rfl⟩

/-- The operands do not have the punctuation of format R, I or B when the machine refuses them. -/
theorem not_threeShape {ops : List Text} (h : threeOperands ops = .error .malformedOperands) :
    ¬ ThreeShape ops := by
  rintro ⟨a, b, c, hs⟩
  rw [(threeOperands_eq_ok_iff ops a b c).mpr hs] at h
  cases h

theorem not_twoShape {ops : List Text} (h : twoOperands ops = .error .malformedOperands) :
    ¬ TwoShape ops := by
  rintro ⟨a, b, hs⟩
  rw [(twoOperands_eq_ok_iff ops a b).mpr hs] at h
  cases h

theorem not_storeShape {ops : List Text} (h : storeOperands ops = .error .malformedOperands) :
    ¬ StoreShape ops := by
  rintro ⟨a, b, c, hs⟩
  rw [(storeOperands_eq_ok_iff ops a b c).mpr hs] at h
  cases h

theorem not_namesRegister {t : Text} (h : Tables.rtab.lookup t = none) : ¬ NamesRegister t := by
  rintro ⟨r, rfl⟩
  simp at h

theorem not_literalWithin {lo hi : Int} {t : Text} (h : imm lo hi t = .error .immediateOutOfRange) :
    ¬ LiteralWithin lo hi t := by
  rintro ⟨v, hv⟩
  rw [(imm_eq_ok_iff lo hi t v).mpr hv] at h
  cases h

theorem notLiteral {t : Text} (h : parseInt t = none) :
    ¬ ∃ ds : Text, ds ≠ [] ∧ (∀ c ∈ ds, isDigit c = true) ∧ (t = ds ∨ t = minus :: ds) := by
  intro hd
  have := (parseInt_isSome_iff t).mpr hd
  rw [h] at this
  cases this

theorem foo_names_no_instruction (i : Instr) : i.key ≠ tok "foo" := by
  intro h
  have hk : Instr.ofKey i.key i.ops = some i := Laws.KeyNames.statement_holds i
  have hn : Instr.named.lookup (tok "foo") = none := by decide
  rw [h, Instr.ofKey, hn] at hk
  cases hk

/-- `add x1, x2, x3`. -/
def addLine : Text := tok "add x1, x2, x3"

theorem witness_TablesReadOnly :
    (∃ t, step (waiting [addLine]) = .next t) ∧
    (∃ t, exec (.add [tok "x1,", tok "x2,", tok "x3"]) State.reset = .next t) :=
  ⟨⟨_, rfl⟩, ⟨_, rfl⟩⟩

theorem witness_ShiftLayoutExactlyForShiftImmediates :
    ((Instr.srai []).key, (⟨0b0010011#7, .shift 0b101#3 0b0100000#7⟩ : Descriptor)) ∈ State.reset.itab ∧
    ((Instr.jal []).key, (⟨0b1101111#7, .J⟩ : Descriptor)) ∈ State.reset.itab := by decide

theorem witness_RegisterNamesAreExactlyTheCanonicalOnes :
    State.reset.rtab.lookup (tok "x0") = some 0 ∧ State.reset.rtab.lookup (tok "x31") = some 31 ∧
    State.reset.rtab.lookup (tok "x32") = none ∧ State.reset.rtab.lookup (tok "x00") = none := by decide

theorem witness_PortsShowTheResult :
    State.reset.result = none ∧
    ({ State.reset with result := some (.ok 0x003100B3#32) }).result = some (.ok 0x003100B3#32) ∧
    ∀ e, ({ State.reset with result := some (.err e) }).result = some (.err e) :=
  ⟨rfl, rfl, fun _ => rfl⟩

theorem witness_RenderingIsBijective :
    (0 < 32 ∧ 31 < 32) ∧ render 0x003100B3#32 = render 0x003100B3#32 ∧
    wordPort { State.reset with result := some (.ok 0x003100B3#32) } = some 0x003100B3#32 ∧
    ∃ t : Text, t.length = 32 ∧ (∀ c ∈ t, c = 0x30#8 ∨ c = 0x31#8) ∧ 0x30#8 ∈ t ∧ 0x31#8 ∈ t :=
  ⟨by decide, rfl, rfl, tok "00000000001100010000000010110011", by decide⟩

theorem witness_StepRunsInstructionInLine :
    ((waiting [addLine]).pending = addLine :: [] ∧
      decodeLine addLine = .ok (.add [tok "x1,", tok "x2,", tok "x3"])) ∧
    ((waiting [tok "foo x1"]).pending = tok "foo x1" :: [] ∧
      decodeLine (tok "foo x1") = .error .unknownMnemonic) ∧
    decodeLine [] = .error .unknownMnemonic := by decide

theorem witness_IdleStepChangesNothing : State.reset.pending = [] := rfl

theorem witness_StepComputesEncode :
    TablesBuilt (waiting [addLine]) ∧ (waiting [addLine]).pending = addLine :: [] :=
  ⟨waiting_built _, rfl⟩

theorem witness_EveryLineIsAnswered : (waiting [[]]).pending = [] :: [] := rfl

theorem witness_EqualLinesGiveEqualResults :
    (waiting [addLine]).pending = addLine :: [] ∧
    (waiting [addLine, tok "foo"]).pending = addLine :: [tok "foo"] ∧
    (waiting [addLine]).itab = (waiting [addLine, tok "foo"]).itab ∧
    (waiting [addLine]).rtab = (waiting [addLine, tok "foo"]).rtab := ⟨rfl, rfl, rfl, rfl⟩

theorem witness_BatchAnswersEachLineAlone :
    TablesBuilt (waiting [tok "foo", [], addLine]) ∧
    (waiting [tok "foo", [], addLine]).pending = [tok "foo", []] ++ addLine :: [] :=
  ⟨waiting_built _, rfl⟩

theorem waiting_inv (l : List Text) : EncoderInv (waiting l) :=
  ⟨waiting_built l, fun _ h => nomatch h⟩

theorem witness_StepKeepsInvariant :
    EncoderInv (waiting [addLine]) ∧ ∃ t, step (waiting [addLine]) = .next t :=
  ⟨waiting_inv _, _, rfl⟩

theorem witness_WhitespaceRunsAreEquivalent :
    (∀ c ∈ tok "\t\r\n ", isWs c = true) ∧ (∀ c ∈ tok " ", isWs c = true) ∧
    tok "\t\r\n " ≠ [] ∧ tok " " ≠ [] := by decide

theorem witness_LiteralSyntaxAndValue :
    (tok "0" ≠ [] ∧ ∀ c ∈ tok "0", isDigit c = true) ∧
    (tok "0099" ≠ [] ∧ ∀ c ∈ tok "0099", isDigit c = true) := by decide

theorem witness_LiteralSyntaxAndValue_malformed :
    ∀ t ∈ [[], tok "-", tok "--5", tok "+5", tok "0x10", tok "1-", tok "1/", tok "1:"],
      ¬ ∃ ds : Text, ds ≠ [] ∧ (∀ c ∈ ds, isDigit c = true) ∧ (t = ds ∨ t = minus :: ds) := by
  have h : ∀ t ∈ [[], tok "-", tok "--5", tok "+5", tok "0x10", tok "1-", tok "1/", tok "1:"],
      parseInt t = none := by decide
  exact fun t ht => notLiteral (h t ht)

theorem witness_UnknownFirstTokenRaisesUnknownMnemonic :
    splitWs (tok " \t") = [] ∧ splitWs (tok "foo x1") = tok "foo" :: [tok "x1"] ∧
    ∀ i : Instr, i.key ≠ tok "foo" :=
  ⟨by decide, by decide, foo_names_no_instruction⟩

theorem witness_WrongTokenCountIsMalformed :
    TablesBuilt State.reset ∧
    (Instr.add []).ops.length ≠ operandCount (.add []) ∧
    (Instr.add [[], []]).ops.length ≠ operandCount (.add [[], []]) ∧
    (Instr.beq [[], [], [], []]).ops.length ≠ operandCount (.beq [[], [], [], []]) ∧
    (Instr.jal [[]]).ops.length ≠ operandCount (.jal [[]]) ∧
    (Instr.sw [[], [], []]).ops.length ≠ operandCount (.sw [[], [], []]) :=
  ⟨reset_built, by decide⟩

theorem witness_ErrorKindsOfTheFormats :
    TablesBuilt State.reset ∧ ∃ ops t, exec (.add ops) State.reset = .next t ∧
      Instr.add ops ∈ [Instr.add ops, .sub ops, .sll ops, .slt ops, .sltu ops, .xor ops, .srl ops,
        .sra ops, .or ops, .and ops] :=
  ⟨reset_built, [], _, rfl, by simp⟩

/-- The clauses that formats R, I and B share: punctuation, then register texts. -/
theorem witness_three_operand_clauses :
    TablesBuilt State.reset ∧
    (∀ ops ∈ [[tok "x1,", tok "x2,"], [tok "x1,", tok "x2,", tok "x3", tok "x4"],
        [tok "x1", tok "x2,", tok "x3"], [tok "x1,,", tok "x2,", tok "x3"],
        [tok "x1,", tok "x2", tok "x3"], [tok "x1,", tok "x2,", tok "x3,"],
        [tok "x1,", tok "x2,", tok "8(x2)"], []], ¬ ThreeShape ops) ∧
    (∀ t ∈ [[], tok "x", tok "x32", tok "x03", tok "X3", tok "zero", tok "5"],
      Clean t ∧ ¬ NamesRegister t) := by
  refine ⟨reset_built, fun ops h => not_threeShape ?_, fun t h => ⟨?_, not_namesRegister ?_⟩⟩
  · revert ops; decide
  · revert t; decide
  · revert t; decide

theorem witness_RFormatMeanings :
    TablesBuilt State.reset ∧ ¬ ThreeShape [] ∧ (Clean (tok "x1") ∧ Clean (tok "x2") ∧ Clean (tok "x32")) ∧
    ¬ (NamesRegister (tok "x1") ∧ NamesRegister (tok "x2") ∧ NamesRegister (tok "x32")) :=
  ⟨reset_built, not_threeShape rfl, by decide, fun h => not_namesRegister (by decide) h.2.2⟩

theorem witness_IFormatGenericMeanings :
    TablesBuilt State.reset ∧
    (parseInt (tok "-2048") = some (-2048) ∧ parseInt (tok "2047") = some 2047) ∧
    (∀ t ∈ [tok "-2049", tok "2048", tok "+5", []], Clean t ∧ ¬ LiteralWithin (-2048) 2047 t) ∧
    ¬ (NamesRegister (tok "x1") ∧ NamesRegister (tok "x99")) := by
  refine ⟨reset_built, by decide, fun t h => ⟨?_, not_literalWithin ?_⟩, fun h => not_namesRegister (by decide) h.2⟩
  · revert t; decide
  · revert t; decide

theorem witness_ShiftImmediateMeanings :
    TablesBuilt State.reset ∧
    (parseInt (tok "0") = some ((0 : Nat) : Int) ∧ parseInt (tok "31") = some ((31 : Nat) : Int)) ∧
    (∀ t ∈ [tok "-1", tok "32", tok "1029"], Clean t ∧ ¬ LiteralWithin 0 31 t) := by
  refine ⟨reset_built, by decide, fun t h => ⟨?_, not_literalWithin ?_⟩⟩
  · revert t; decide
  · revert t; decide

theorem witness_SFormatMeanings :
    TablesBuilt State.reset ∧
    (parseInt (tok "-2048") = some (-2048) ∧ parseInt (tok "2047") = some 2047) ∧
    (∀ ops ∈ [[tok "x3,"], [tok "x3", tok "4(x1)"], [tok "x3,", tok "4(x1"], [tok "x3,", tok "4((x1)"],
        [tok "x3,", tok "4(x1))"], [tok "x3,", tok "x1"], [tok "x3,", tok "4(x1),"]],
      ¬ StoreShape ops) ∧
    (Clean (tok "x3") ∧ Clean (tok "5000") ∧ Clean (tok "y")) ∧
    ¬ (NamesRegister (tok "x3") ∧ NamesRegister (tok "y")) ∧
    (∀ t ∈ [tok "-2049", tok "2048", []], Clean t ∧ ¬ LiteralWithin (-2048) 2047 t) := by
  refine ⟨reset_built, by decide, fun ops h => not_storeShape ?_, by decide,
    fun h => not_namesRegister (by decide) h.2, fun t h => ⟨?_, not_literalWithin ?_⟩⟩
  · revert ops; decide
  · revert t; decide
  · revert t; decide

theorem witness_BFormatMeanings :
    TablesBuilt State.reset ∧
    (parseInt (tok "-4096") = some (-4096) ∧ parseInt (tok "4095") = some 4095) ∧
    (∀ t ∈ [tok "-4097", tok "4096", tok "loop"], Clean t ∧ ¬ LiteralWithin (-4096) 4095 t) := by
  refine ⟨reset_built, by decide, fun t h => ⟨?_, not_literalWithin ?_⟩⟩
  · revert t; decide
  · revert t; decide

theorem witness_JalMeaning :
    TablesBuilt State.reset ∧
    (parseInt (tok "-1048576") = some (-1048576) ∧ parseInt (tok "1048575") = some 1048575) ∧
    (∀ ops ∈ [[tok "16"], [tok "x1", tok "16"], [tok "x1,", tok "x2,", tok "16"], [tok "x1,", tok "16,"]],
      ¬ TwoShape ops) ∧
    (Clean [] ∧ Clean (tok "16") ∧ ¬ NamesRegister []) ∧
    (∀ t ∈ [tok "-1048577", tok "1048576", tok "loop"],
      Clean t ∧ ¬ LiteralWithin (-1048576) 1048575 t) := by
  refine ⟨reset_built, by decide, fun ops h => not_twoShape ?_, ⟨rfl, by decide, not_namesRegister (by decide)⟩,
    fun t h => ⟨?_, not_literalWithin ?_⟩⟩
  · revert ops; decide
  · revert t; decide
  · revert t; decide

theorem witness_UFormatMeanings :
    TablesBuilt State.reset ∧
    (parseInt (tok "-524288") = some (-524288) ∧ parseInt (tok "524287") = some 524287) ∧
    (Clean (tok "1") ∧ Clean (tok "x1") ∧ ¬ NamesRegister (tok "1")) ∧
    (∀ t ∈ [tok "-524289", tok "524288", tok "1048575"],
      Clean t ∧ ¬ LiteralWithin (-524288) 524287 t) := by
  refine ⟨reset_built, by decide, ⟨by decide, by decide, not_namesRegister (by decide)⟩,
    fun t h => ⟨?_, not_literalWithin ?_⟩⟩
  · revert t; decide
  · revert t; decide

theorem witness_OddOffsetEncodesAsEven :
    TablesBuilt State.reset ∧
    (parseInt (tok "4095") = some 4095 ∧ parseInt (tok "4094") = some (4095 - 1)) ∧
    (parseInt (tok "-4095") = some (-4095) ∧ parseInt (tok "-4096") = some (-4095 - 1)) ∧
    (parseInt (tok "1048575") = some 1048575 ∧ parseInt (tok "1048574") = some (1048575 - 1)) ∧
    ((4095 : Int) % 2 = 1 ∧ (-4095 : Int) % 2 = 1 ∧ (1048575 : Int) % 2 = 1) :=
  ⟨reset_built, by decide⟩

theorem witness_DecodeOfEncodeIsIdentity :
    (Instr.bge [tok "x7,", tok "x8,", tok "-4096"]).wellFormed = true ∧
    (Instr.bge [tok "x7,", tok "x8,", tok "-4096"]).evenOffset = true ∧
    (Instr.jal [tok "x5,", tok "1048574"]).wellFormed = true ∧
    (Instr.jal [tok "x5,", tok "1048574"]).evenOffset = true ∧
    (Instr.lui [tok "x31,", tok "-524288"]).wellFormed = true ∧
    (Instr.lui [tok "x31,", tok "-524288"]).evenOffset = true := by decide

theorem witness_EncodeOfDecodeIsIdentity :
    decodeWord 0xFE419EE3#32 = .ok (.bne [tok "x3,", tok "x4,", tok "-4"]) := by decide

theorem witness_CanonicalLineGivesItsWord :
    TablesBuilt (waiting [addLine]) ∧
    (Instr.add [tok "x1,", tok "x2,", tok "x3"]).wellFormed = true ∧
    (waiting [addLine]).pending = (Instr.add [tok "x1,", tok "x2,", tok "x3"]).line :: [] :=
  ⟨waiting_built _, by decide, by decide⟩

theorem witness_ProducedWordsAreExactlyTheTableWords :
    encodeLine Tables.itab Tables.rtab addLine = .ok 0x003100B3#32 ∧
    isProducible 0x003100B3#32 = true ∧ isProducible 0x00000000#32 = false := by decide

theorem witness_LowBitsAreTheOpcode_and_MnemonicReadsBack :
    encodeLine Tables.itab Tables.rtab (tok "sra x21, x22, x23") = .ok 0x417B5AB3#32 := by decide

theorem witness_ImmediatesReadBack :
    ((-2048 : Int) ≤ -2048 ∧ (-2048 : Int) ≤ 2047) ∧ ((0 : Int) ≤ 31 ∧ (31 : Int) ≤ 31) ∧
    ((-4096 : Int) ≤ 4095 ∧ (4095 : Int) ≤ 4095) ∧
    ((-1048576 : Int) ≤ -1048575 ∧ (-1048575 : Int) ≤ 1048575) ∧
    ((-524288 : Int) ≤ 524287 ∧ (524287 : Int) ≤ 524287) := by decide

theorem witness_CanonicalLinesHaveAtMost21Characters :
    (Instr.sltiu [tok "x10,", tok "x11,", tok "-2048"]).wellFormed = true ∧
    (Instr.sltiu [tok "x10,", tok "x11,", tok "-2048"]).line = tok "sltiu x10, x11, -2048" := by decide

theorem witness_TableWordRunsItsInstruction :
    decodeTableWord 32 0x00000033 = some (.add [tok "x0,", tok "x0,", tok "x0"]) ∧
    TablesBuilt State.reset := ⟨by decide, reset_built⟩

theorem witness_MeaningStatements_rows :
    (Instr.auipc, 0b0010111#7, 0x00000017#32) ∈
      [(Instr.lui, 0b0110111#7, 0x00000037#32), (Instr.auipc, 0b0010111#7, 0x00000017#32)] :=
  List.mem_cons_of_mem _ (List.mem_cons_self ..)

end Sys2Proof.Tests
end

section
/-! SUPPORT. What a step answers, as a function of the two tables and the line: the line decoder hands
the tokens of the line on unchanged, so the meaning that runs computes `encodeLine` (R14, R120). -/

namespace Sys2Proof.Machine

/-- Each of the 37 rows of `Instr.named` makes the instruction with the row's mnemonic and the operand
tokens it is given. -/
theorem key_and_ops_of_mem_named :
    ∀ p ∈ Instr.named, ∀ ops, (p.2 ops).key = p.1 ∧ (p.2 ops).ops = ops := by
  simp [Instr.named, Instr.namedR, Instr.namedI, Instr.namedB, Instr.namedJ, Instr.namedS,
    Instr.namedU, Instr.key, Instr.ops]

/-- An instruction found by its mnemonic token carries that mnemonic and the operand tokens given: the
converse of `Laws.KeyNames`. -/
theorem key_and_ops_of_ofKey {m : Text} {ops : List Text} {i : Instr}
    (h : Instr.ofKey m ops = some i) : i.key = m ∧ i.ops = ops := by
  obtain ⟨mk, hmk, rfl⟩ := Option.map_eq_some_iff.mp h
  exact key_and_ops_of_mem_named _ (lookup_mem hmk) ops

/-- The instruction read from a line carries the tokens of the line. -/
theorem splitWs_of_decodeLine_ok {line : Text} {i : Instr} (h : decodeLine line = .ok i) :
    splitWs line = i.key :: i.ops := by
  unfold decodeLine at h
  split at h
  · cases h
  · next m ops hs =>
    split at h
    · cases h
    · next j hj =>
      cases h
      obtain ⟨hkey, hops⟩ := key_and_ops_of_ofKey hj
      rw [hs, hkey, hops]

/-- The instruction read from a line answers with the encoding of the line, on every table. -/
theorem exec_of_decodeLine_ok {line : Text} {i : Instr} (h : decodeLine line = .ok i) (s : State) :
    exec i s = .next (answer (encodeLine s.itab s.rtab line) s) := by
  rw [exec_eq_execMnemonic]
  exact execMnemonic_eq_encodeLine _ (splitWs_of_decodeLine_ok h)

variable {s : State} {line : Text} {rest : List Text}

/-- A step on a line that names an instruction answers with the encoding of the line. -/
theorem step_of_decodeLine_ok {i : Instr} (hp : s.pending = line :: rest)
    (h : decodeLine line = .ok i) :
    step s = .next (answer (encodeLine s.itab s.rtab line) { s with pending := rest }) := by
  simp only [step, hp, h, exec_of_decodeLine_ok h]

/-- A step on a line that names no instruction raises the decoder's error (R122, R123). -/
theorem step_of_decodeLine_error {e : ErrorKind} (hp : s.pending = line :: rest)
    (h : decodeLine line = .error e) :
    step s = .next (raise e { s with pending := rest }) := by
  simp only [step, hp, h]

end Sys2Proof.Machine
end

section
/-! SUPPORT. The statements of spec/00_scope.md. -/

namespace Sys2Proof.Machine

/-- Settles O11, by what the decoder reads from the shared line: on an error both steps raise it, and
on an instruction both answer with `encodeLine` of the shared tables and line (R14). -/
theorem equalLinesGiveEqualResults : Obligations.EqualLinesGiveEqualResults := by
  intro s s' line rest rest' hp hp' hitab hrtab
  cases hd : decodeLine line with
  | error e =>
    exact ⟨_, _, .err e, step_of_decodeLine_error hp hd, step_of_decodeLine_error hp' hd,
      raise_result _ _, raise_result _ _⟩
  | ok i =>
    refine ⟨_, _, encodeLine s.itab s.rtab line, step_of_decodeLine_ok hp hd,
      step_of_decodeLine_ok hp' hd, answer_result _ _, ?_⟩
    rw [answer_result, hitab, hrtab]

end Sys2Proof.Machine
end

section
/-! SUPPORT. The two tables: no operation writes them, no key stands twice, and the spelling of a
register name (R20, R24). -/

namespace Sys2Proof.Machine

/-- A step leaves both tables as they are: idle it changes nothing, and with a line waiting it writes
the input and the result only (R20). -/
theorem step_tables {s t : State} (h : step s = .next t) : t.itab = s.itab ∧ t.rtab = s.rtab := by
  cases hp : s.pending with
  | nil =>
    obtain rfl : s = t := by simpa [step_idle hp] using h
    exact ⟨rfl, rfl⟩
  | cons line rest =>
    obtain ⟨r, hr⟩ := step_eq_next hp
    obtain rfl : answer r { s with pending := rest } = t := by simpa [hr] using h
    exact ⟨answer_itab _ _, answer_rtab _ _⟩

/-- The meaning of an instruction leaves both tables as they are (R20). -/
theorem exec_tables {i : Instr} {s t : State} (h : exec i s = .next t) :
    t.itab = s.itab ∧ t.rtab = s.rtab := by
  obtain ⟨r, hr⟩ := exec_eq_next i s
  obtain rfl : answer r s = t := by simpa [hr] using h
  exact ⟨answer_itab _ _, answer_rtab _ _⟩

/-- The 37 mnemonics of ITAB are different (R20). -/
theorem itab_keys_nodup : (Tables.itab.map Prod.fst).Nodup := by decide

/-- The keys of RTAB are the names of its indices (R24). -/
theorem rtab_keys_eq : Tables.rtab.map Prod.fst = (Tables.rtab.map Prod.snd).map regName := by decide

/-- The 32 keys of RTAB are different: they name different indices (R20, R24). -/
theorem rtab_keys_nodup : (Tables.rtab.map Prod.fst).Nodup := by
  have indices : (Tables.rtab.map Prod.snd).Nodup := by decide
  rw [rtab_keys_eq]
  exact indices.map regName_injective

/-- Only the numeral of 0 begins with the digit 0 (R24). -/
theorem eq_zero_of_head?_natText {n : Nat} (h : (natText n).head? = some 0x30#8) : n = 0 := by
  by_contra hn
  have pos := isPositiveNumeral_natText (Nat.pos_of_ne_zero hn)
  obtain ⟨c, cs, hc, -, -⟩ := natText_eq_cons n
  obtain rfl : c = 0x30#8 := by simpa [hc] using h
  simp [hc, isPositiveNumeral] at pos

/-- A numeral read as a literal gives its number (R104). -/
theorem parseInt_natText (n : Nat) : parseInt (natText n) = some (n : Int) :=
  parseInt_intText n

end Sys2Proof.Machine
end

section
/-! SUPPORT. The ports of a state whose result is known (R33, R35, R255). -/

namespace Sys2Proof.Machine

variable {s : State}

/-- Without a result no port has a value (R35; log entry 3). -/
theorem ports_of_no_result (h : s.result = none) :
    statusPort s = none ∧ wordPort s = none ∧ textPort s = none := by
  simp [statusPort, wordPort, textPort, h]

/-- A result `Ok(w)` shows status 0, the word and its rendering (R33). -/
theorem ports_of_ok {w : Word} (h : s.result = some (.ok w)) :
    statusPort s = some 0 ∧ wordPort s = some w ∧ textPort s = some (render w) := by
  simp [statusPort, wordPort, textPort, statusOf, wordOf, h]

/-- An error shows its code, and neither a word nor a text (R33; log entry 6). -/
theorem ports_of_err {e : ErrorKind} (h : s.result = some (.err e)) :
    wordPort s = none ∧ textPort s = none ∧ statusPort s = some (errorCode e) := by
  simp [statusPort, wordPort, textPort, statusOf, wordOf, h]

end Sys2Proof.Machine
end

section
/-! SUPPORT. The statements of spec/10_state.md. -/

namespace Sys2Proof.Machine

/-- Settles O1: a step and a meaning write the input and the result only, and the tables as built have
no key twice. -/
theorem tablesReadOnly : Obligations.TablesReadOnly :=
  ⟨fun _ _ => step_tables, fun _ _ _ => exec_tables, rfl, itab_keys_nodup, rfl, rtab_keys_nodup⟩

/-- Settles O4: the lookup is the inverse of `regName`, whose numeral is the index's own. -/
theorem registerNamesAreExactlyTheCanonicalOnes :
    Obligations.RegisterNamesAreExactlyTheCanonicalOnes := by
  refine ⟨rfl, rtab_lookup_eq_some_iff, fun r => ⟨natText r.toNat, rfl, ?_, parseInt_natText _, ?_⟩⟩
  · exact fun _ => isDigit_of_mem_natText
  · exact fun h => BitVec.eq_of_toNat_eq (eq_zero_of_head?_natText h)

/-- Settles O5, by the three kinds of result a state can hold. -/
theorem portsShowTheResult : Obligations.PortsShowTheResult := by
  refine fun s => ⟨ports_of_no_result, fun w => ports_of_ok, fun e h => ?_⟩
  obtain ⟨hword, htext, hstatus⟩ := ports_of_err h
  exact ⟨hword, htext, by cases e <;> exact hstatus⟩

end Sys2Proof.Machine
end

section
/-! SUPPORT. The value of a literal, and what the operand check answers where there is none (R104). -/

namespace Sys2Proof.Machine

/-- One or more digits read as their decimal value. -/
theorem parseNat_of_digits {ds : Text} (hne : ds ≠ []) (hd : ∀ c ∈ ds, isDigit c = true) :
    parseNat ds = some (ds.foldl (fun n c => n * 10 + digitValue c) 0) := by
  cases ds with
  | nil => exact absurd rfl hne
  | cons c cs => exact readDigits_eq_foldl hd

/-- After a `'-'` the value is negated. -/
theorem parseInt_minus_cons (t : Text) :
    parseInt (minus :: t) = (parseNat t).map fun n : Nat => -(n : Int) := by
  simp [parseInt]

/-- A text that begins with a digit has no sign: its value is that of its digits. -/
theorem parseInt_of_digits {ds : Text} (hd : ∀ c ∈ ds, isDigit c = true) :
    parseInt ds = (parseNat ds).map fun n : Nat => (n : Int) := by
  cases ds with
  | nil => rfl
  | cons c cs =>
    have hc : c ≠ minus := by
      rintro rfl
      simpa [isDigit_minus] using hd minus
    simp [parseInt, hc]

/-- A text that is no literal has no value, which is the rule's `Malformed`. -/
theorem parseInt_eq_none_of_not_literal {t : Text}
    (h : ¬ ∃ ds : Text, ds ≠ [] ∧ (∀ c ∈ ds, isDigit c = true) ∧ (t = ds ∨ t = minus :: ds)) :
    parseInt t = none := by
  rwa [← parseInt_isSome_iff, Option.not_isSome_iff_eq_none] at h

/-- The operand check refuses a text without a value, whatever the bounds (D7). -/
theorem imm_of_parseInt_eq_none {t : Text} (h : parseInt t = none) (lo hi : Int) :
    imm lo hi t = .error .immediateOutOfRange := by
  simp [imm, h]

end Sys2Proof.Machine
end

section
/-! SUPPORT. The statement of spec/30_encoding.md on literals. -/

namespace Sys2Proof.Machine

/-- Settles O17: a text of digits reads as their value, a `'-'` in front negates it, and a text of
neither form has no value and is refused. -/
theorem literalSyntaxAndValue : Obligations.LiteralSyntaxAndValue := by
  refine ⟨fun ds hne hd => ?_, fun t ht => ?_⟩
  · have hv := parseNat_of_digits hne hd
    constructor
    · rw [parseInt_of_digits hd, hv]; rfl
    · rw [parseInt_minus_cons, hv]; rfl
  · have hnone := parseInt_eq_none_of_not_literal ht
    exact ⟨hnone, imm_of_parseInt_eq_none hnone⟩

end Sys2Proof.Machine
end

section
/-! SUPPORT. The rendering has an inverse: the word whose bits a text of `'0'` and `'1'` writes
(R150). -/

namespace Sys2Proof.Machine

/-- The word a rendering shows: bit `i` is set where character `31-i` is `'1'` (R150, read
backwards). -/
def unrender (t : Text) : Word := BitVec.ofFnLE fun i => t[31 - i.val]? == some 0x31#8

theorem unrender_getLsbD (t : Text) {i : Nat} (hi : i < 32) :
    (unrender t).getLsbD i = (t[31 - i]? == some 0x31#8) := by
  rw [unrender, BitVec.getLsbD_ofFnLE, dif_pos hi]

/-- `render_getElem` as a lookup that may fall outside the text. -/
theorem render_getElem? (w : Word) {k : Nat} (hk : k < 32) :
    (render w)[k]? = some (if w.getLsbD (31 - k) then 0x31#8 else 0x30#8) := by
  rw [List.getElem?_eq_getElem (by simpa using hk), render_getElem w k hk]

/-- A rendering reads back as its word: bit `i` stands in character `31-i`. -/
theorem unrender_render (w : Word) : unrender (render w) = w := by
  refine BitVec.eq_of_getLsbD_eq fun i hi => ?_
  have back : 31 - (31 - i) = i := by omega
  rw [unrender_getLsbD _ hi, render_getElem? w (by omega), back]
  cases w.getLsbD i <;> rfl

theorem render_injective : Function.Injective render :=
  Function.LeftInverse.injective unrender_render

/-- A text of 32 characters `'0'` and `'1'` is the rendering of the word it writes. -/
theorem render_unrender {t : Text} (hlen : t.length = 32)
    (hbits : ∀ c ∈ t, c = 0x30#8 ∨ c = 0x31#8) : render (unrender t) = t := by
  refine List.ext_getElem (by simp [hlen]) fun k hk hk' => ?_
  have hk32 : k < 32 := by omega
  have back : 31 - (31 - k) = k := by omega
  rw [render_getElem _ k hk32, unrender_getLsbD t (by omega), back,
    List.getElem?_eq_getElem hk']
  obtain hc | hc := hbits _ (List.getElem_mem hk') <;> rw [hc] <;> rfl

/-- A word on the port has its rendering beside it (R33). -/
theorem textPort_of_wordPort {s : State} {w : Word} (h : wordPort s = some w) :
    textPort s = some (render w) := by
  simp [textPort, h]

end Sys2Proof.Machine
end

section
/-! SUPPORT. The one error of the line decoder, and when it raises it (R122, R123). -/

namespace Sys2Proof.Machine

/-- The decoder raises no error but `UnknownMnemonic`. -/
theorem eq_unknownMnemonic_of_decodeLine_error {line : Text} {e : ErrorKind}
    (h : decodeLine line = .error e) : e = .unknownMnemonic := by
  unfold decodeLine at h
  split at h
  · cases h; rfl
  · split at h
    · cases h; rfl
    · cases h

/-- A line whose tokens do not begin with a mnemonic is refused (R122, R123). -/
theorem decodeLine_of_splitWs_ne {line : Text}
    (h : ∀ (i : Instr) (ops : List Text), splitWs line ≠ i.key :: ops) :
    decodeLine line = .error .unknownMnemonic := by
  cases hd : decodeLine line with
  | ok i => exact absurd (splitWs_of_decodeLine_ok hd) (h i i.ops)
  | error e => rw [eq_unknownMnemonic_of_decodeLine_error hd]

end Sys2Proof.Machine
end

section
/-! SUPPORT. Operand tokens without the punctuation of the format raise `MalformedOperands`, and a
wrong number of tokens is one way to lack it (R124 to R128). -/

namespace Sys2Proof.Machine

variable {ops : List Text}

theorem threeOperands_of_not_threeShape (h : ¬ ThreeShape ops) :
    threeOperands ops = .error .malformedOperands := by
  cases hx : threeOperands ops with
  | ok p => exact absurd ⟨_, _, _, (threeOperands_eq_ok_iff _ _ _ _).mp hx⟩ h
  | error e => rw [threeOperands_eq_error _ _ hx]

theorem twoOperands_of_not_twoShape (h : ¬ TwoShape ops) :
    twoOperands ops = .error .malformedOperands := by
  cases hx : twoOperands ops with
  | ok p => exact absurd ⟨_, _, (twoOperands_eq_ok_iff _ _ _).mp hx⟩ h
  | error e => rw [twoOperands_eq_error _ _ hx]

theorem storeOperands_of_not_storeShape (h : ¬ StoreShape ops) :
    storeOperands ops = .error .malformedOperands := by
  cases hx : storeOperands ops with
  | ok p => exact absurd ⟨_, _, _, (storeOperands_eq_ok_iff _ _ _ _).mp hx⟩ h
  | error e => rw [storeOperands_eq_error _ _ hx]

/-- The punctuation that the format of a layout asks of the operand tokens (R125 to R128). -/
def OperandShape : Layout → List Text → Prop
  | .R _ _ | .I _ | .shift _ _ | .B _ => ThreeShape
  | .S _ => StoreShape
  | .U | .J => TwoShape

/-- `nops` of R125: how many operand tokens the format of a layout wants. -/
def nops : Layout → Nat
  | .R _ _ | .I _ | .shift _ _ | .B _ => 3
  | .S _ | .U | .J => 2

theorem length_of_operandShape {l : Layout} (h : OperandShape l ops) :
    ops.length = nops l := by
  cases l
  case R | I | shift | B => obtain ⟨_, _, _, rfl, -⟩ := h; rfl
  case S => obtain ⟨_, _, _, rfl, -⟩ := h; rfl
  case U | J => obtain ⟨_, _, rfl, -⟩ := h; rfl

/-- The punctuation comes first: where it is wrong, no register and no immediate is looked at
(R129). -/
theorem encodeOperands_of_not_operandShape {d : Descriptor} (rtab : List (Text × RegIndex))
    (h : ¬ OperandShape d.layout ops) :
    encodeOperands d rtab ops = .error .malformedOperands := by
  obtain ⟨opcode, layout⟩ := d
  cases layout
  case R | I | shift | B =>
    simp only [encodeOperands, encodeR, encodeI, encodeIshift, encodeB,
      threeOperands_of_not_threeShape h]
    rfl
  case S => simp only [encodeOperands, encodeS, storeOperands_of_not_storeShape h]; rfl
  case U | J =>
    simp only [encodeOperands, encodeU, encodeJ, twoOperands_of_not_twoShape h]
    rfl

/-- Every mnemonic has its row in ITAB, with the layout that wants the instruction's number of operand
tokens (R22, R125). -/
theorem exists_itab_lookup_key (i : Instr) :
    ∃ d, Tables.itab.lookup i.key = some d ∧ nops d.layout = operandCount i := by
  cases i <;> exact ⟨_, rfl, rfl⟩

/-- Once its descriptor is found, an instruction whose operand tokens lack the punctuation of the
format raises `MalformedOperands`. -/
theorem exec_of_not_operandShape {i : Instr} {s : State} {d : Descriptor}
    (hd : s.itab.lookup i.key = some d) (h : ¬ OperandShape d.layout i.ops) :
    exec i s = .next (raise .malformedOperands s) := by
  rw [exec_eq_execMnemonic, execMnemonic_of_lookup _ hd, encodeOperands_of_not_operandShape _ h]
  rfl

end Sys2Proof.Machine
end

section
/-! SUPPORT. The statements of spec/40_encode_pipeline.md. -/

namespace Sys2Proof.Machine

/-- Settles O6: the rendering has 32 characters that show the bits, and `unrender` is its inverse. -/
theorem renderingIsBijective : Obligations.RenderingIsBijective :=
  ⟨fun w => ⟨render_length w, fun _ => render_getElem? w⟩, fun v w => @render_injective v w,
    fun t hlen hbits => ⟨unrender t, render_unrender hlen hbits⟩, fun _ _ => textPort_of_wordPort⟩

/-- Settles O18: in both cases the tokens of the line do not begin with a mnemonic, so the decoder
refuses it and the step raises the decoder's error. -/
theorem unknownFirstTokenRaisesUnknownMnemonic :
    Obligations.UnknownFirstTokenRaisesUnknownMnemonic := by
  intro s line rest hp hfirst
  refine step_of_decodeLine_error hp (decodeLine_of_splitWs_ne fun i ops hi => ?_)
  obtain hnil | ⟨m, ops', hcons, hkey⟩ := hfirst
  · simp [hi] at hnil
  · obtain ⟨rfl, -⟩ := List.cons.inj (hi.symm.trans hcons)
    exact hkey i rfl

/-- Settles O19: the row of the instruction in ITAB wants `operandCount` tokens, and tokens with the
punctuation of its format are that many. -/
theorem wrongTokenCountIsMalformed : Obligations.WrongTokenCountIsMalformed := by
  intro i s hs hlen
  obtain ⟨d, hd, hnops⟩ := exists_itab_lookup_key i
  refine exec_of_not_operandShape (hs.itab ▸ hd) fun hshape => hlen ?_
  rw [← hnops, length_of_operandShape hshape]

end Sys2Proof.Machine
end

section
/-! SUPPORT. An instruction on tables as built answers with its own row of ITAB (R22, R124). -/

namespace Sys2Proof.Machine

/-- The instructions that `mk` makes have the row `d` in ITAB and carry the operand tokens they are
given. -/
def HasRow (mk : List Text → Instr) (d : Descriptor) : Prop :=
  ∀ ops, Tables.itab.lookup (mk ops).key = some d ∧ (mk ops).ops = ops

variable {mk : List Text → Instr} {d : Descriptor} {s : State}

/-- On tables as built the result is that of the row's branch. -/
theorem exec_of_hasRow (h : HasRow mk d) (hs : TablesBuilt s) (ops : List Text) :
    exec (mk ops) s = .next (answer (resultOf (encodeOperands d Tables.rtab ops)) s) := by
  obtain ⟨hkey, hops⟩ := h ops
  rw [exec_eq_execMnemonic, execMnemonic_of_lookup _ (hs.itab ▸ hkey), hs.rtab, hops]

/-- On tables as built, operand tokens without the punctuation of the row's format raise
`MalformedOperands`. -/
theorem exec_of_hasRow_of_not_operandShape (h : HasRow mk d) (hs : TablesBuilt s) {ops : List Text}
    (hshape : ¬ OperandShape d.layout ops) :
    exec (mk ops) s = .next (raise .malformedOperands s) := by
  rw [exec_of_hasRow h hs, encodeOperands_of_not_operandShape _ hshape]
  rfl

end Sys2Proof.Machine
end

section
/-! SUPPORT. Operand texts: the three texts that the punctuation of formats R, I and B leaves, and
what a register text resolves to in RTAB as built (R126, R127, R135). -/

namespace Sys2Proof.Machine

theorem threeOperands_of_clean {a b c : Text} (ha : Clean a) (hb : Clean b) (hc : Clean c) :
    threeOperands [sepToken a, sepToken b, c] = .ok (a, b, c) :=
  (threeOperands_eq_ok_iff _ _ _ _).mpr ⟨rfl, ha, hb, hc⟩

@[simp] theorem reg_regName (r : RegIndex) : reg Tables.rtab (regName r) = .ok r :=
  (reg_eq_ok_iff _ _ _).mpr (rtab_lookup_regName r)

theorem reg_of_not_namesRegister {t : Text} (h : ¬ NamesRegister t) :
    reg Tables.rtab t = .error .unknownRegister := by
  refine (reg_eq_error_iff _ _ _).mpr ⟨Option.eq_none_iff_forall_ne_some.mpr fun r hr => h ?_, rfl⟩
  exact ⟨r, (rtab_lookup_eq_some_iff t r).mp hr⟩

end Sys2Proof.Machine
end

section
/-! SUPPORT. The branch of format R: the word of three registers and its fixed bits, and the error of
a text that names none (R71, R160). -/

namespace Sys2Proof.Machine

variable (opcode : BitVec 7) (funct3 : BitVec 3) (funct7 : BitVec 7) (rd rs1 rs2 : RegIndex)

@[simp] theorem encodeOperands_R (rtab : List (Text × RegIndex)) (ops : List Text) :
    encodeOperands ⟨opcode, .R funct3 funct7⟩ rtab ops = encodeR opcode funct3 funct7 rtab ops :=
  rfl

/-- The conjunction of two words of format R is taken field by field. -/
theorem assembleR_and (opcode' : BitVec 7) (funct3' : BitVec 3) (funct7' : BitVec 7)
    (rd' rs1' rs2' : RegIndex) :
    assembleR opcode funct3 funct7 rd rs1 rs2 &&& assembleR opcode' funct3' funct7' rd' rs1' rs2' =
      assembleR (opcode &&& opcode') (funct3 &&& funct3') (funct7 &&& funct7')
        (rd &&& rd') (rs1 &&& rs1') (rs2 &&& rs2') := by
  simp only [assembleR, ← BitVec.and_append]

/-- The mask of format R keeps the opcode and the function fields and clears the three registers. -/
theorem assembleR_and_mask :
    assembleR opcode funct3 funct7 rd rs1 rs2 &&& 0xFE00707F#32 =
      assembleR opcode funct3 funct7 0#5 0#5 0#5 := by
  have mask : 0xFE00707F#32 =
      assembleR (BitVec.allOnes 7) (BitVec.allOnes 3) (BitVec.allOnes 7) 0#5 0#5 0#5 := by decide
  rw [mask, assembleR_and]
  simp only [BitVec.and_allOnes, BitVec.and_zero]

theorem encodeR_of_registers :
    encodeR opcode funct3 funct7 Tables.rtab [regToken rd, regToken rs1, regName rs2] =
      .ok (assembleR opcode funct3 funct7 rd rs1 rs2) :=
  (encodeR_eq_ok_iff _ _ _ _ _ _).mpr
    ⟨_, _, _, ⟨rfl, clean_regName rd, clean_regName rs1, clean_regName rs2⟩,
      rd, rtab_lookup_regName rd, rs1, rtab_lookup_regName rs1, rs2, rtab_lookup_regName rs2, rfl⟩

/-- The texts are resolved from left to right, and the first that names no register raises the error
(R260). -/
theorem encodeR_of_not_namesRegister {a b c : Text} (ha : Clean a) (hb : Clean b) (hc : Clean c)
    (h : ¬ (NamesRegister a ∧ NamesRegister b ∧ NamesRegister c)) :
    encodeR opcode funct3 funct7 Tables.rtab [sepToken a, sepToken b, c] =
      .error .unknownRegister := by
  rw [encodeR, threeOperands_of_clean ha hb hc]
  by_cases hra : NamesRegister a
  · obtain ⟨rd, rfl⟩ := hra
    by_cases hrb : NamesRegister b
    · obtain ⟨rs1, rfl⟩ := hrb
      have hrc : ¬ NamesRegister c := fun hrc => h ⟨⟨rd, rfl⟩, ⟨rs1, rfl⟩, hrc⟩
      simp [reg_of_not_namesRegister hrc, bind, Except.bind]
    · simp [reg_of_not_namesRegister hrb, bind, Except.bind]
  · simp [reg_of_not_namesRegister hra, bind, Except.bind]

end Sys2Proof.Machine
end

section
/-! SUPPORT. The statement of spec/41_r_format.md. -/

namespace Sys2Proof.Machine

/-- Settles O21: each of the ten mnemonics has its row of ITAB, with the opcode of format R and the
row's function fields, so the three clauses are those of the branch `encodeR`. -/
theorem rFormatMeanings : Obligations.RFormatMeanings := by
  intro s hs row hrow
  have hdesc : HasRow row.1 ⟨0b0110011#7, .R row.2.1 row.2.2.1⟩ := by
    fin_cases hrow <;> exact fun _ => ⟨rfl, rfl⟩
  have hmatch : assembleR 0b0110011#7 row.2.1 row.2.2.1 0#5 0#5 0#5 = row.2.2.2 := by
    fin_cases hrow <;> rfl
  refine ⟨fun rd rs1 rs2 => ⟨_, ?_, rfl, ?_⟩, fun ops hops => ?_, fun a b c ha hb hc hnames => ?_⟩
  · rw [exec_of_hasRow hdesc hs, encodeOperands_R, encodeR_of_registers]; rfl
  · rw [← hmatch, ← assembleR_and_mask _ _ _ rd rs1 rs2]; rfl
  · exact exec_of_hasRow_of_not_operandShape hdesc hs hops
  · rw [exec_of_hasRow hdesc hs, encodeOperands_R,
      encodeR_of_not_namesRegister _ _ _ ha hb hc hnames]
    rfl

end Sys2Proof.Machine
end

section
/-! SUPPORT. Two registers and an immediate: what the operand grammar that the two paths of format I
share with format B accepts, and the error it raises, whatever word is made of the operands (R102,
R125 to R138, R260). -/

namespace Sys2Proof.Machine

theorem imm_of_not_literalWithin {lo hi : Int} {t : Text} (h : ¬ LiteralWithin lo hi t) :
    imm lo hi t = .error .immediateOutOfRange := by
  cases hx : imm lo hi t with
  | ok v => exact absurd ⟨v, (imm_eq_ok_iff _ _ _ _).mp hx⟩ h
  | error e => rw [imm_eq_error _ _ _ _ hx]

/-- Steps 2 to 4 of R120 for two registers and an immediate between the bounds. -/
def regRegImm (lo hi : Int) (rtab : List (Text × RegIndex)) (ops : List Text) :
    Except ErrorKind (RegIndex × RegIndex × Int) := do
  let (a, b, c) ← threeOperands ops
  let r₁ ← reg rtab a
  let r₂ ← reg rtab b
  let v ← imm lo hi c
  return (r₁, r₂, v)

variable {lo hi : Int}

theorem regRegImm_of_literal (r₁ r₂ : RegIndex) {t : Text} {v : Int} (ht : parseInt t = some v)
    (hlo : lo ≤ v) (hhi : v ≤ hi) :
    regRegImm lo hi Tables.rtab [regToken r₁, regToken r₂, t] = .ok (r₁, r₂, v) := by
  have himm : imm lo hi t = .ok v := (imm_eq_ok_iff _ _ _ _).mpr ⟨ht, hlo, hhi⟩
  rw [regRegImm, regToken, regToken,
    threeOperands_of_clean (clean_regName r₁) (clean_regName r₂) (clean_of_parseInt ht)]
  simp [himm, bind, Except.bind, pure, Except.pure]

theorem regRegImm_of_not_threeShape {ops : List Text} (h : ¬ ThreeShape ops) :
    regRegImm lo hi Tables.rtab ops = .error .malformedOperands := by
  rw [regRegImm, threeOperands_of_not_threeShape h]
  rfl

/-- The registers come before the immediate, so the text of the immediate does not matter (R136). -/
theorem regRegImm_of_not_namesRegister {a b c : Text} (ha : Clean a) (hb : Clean b) (hc : Clean c)
    (h : ¬ (NamesRegister a ∧ NamesRegister b)) :
    regRegImm lo hi Tables.rtab [sepToken a, sepToken b, c] = .error .unknownRegister := by
  rw [regRegImm, threeOperands_of_clean ha hb hc]
  by_cases hra : NamesRegister a
  · have hrb : ¬ NamesRegister b := fun hrb => h ⟨hra, hrb⟩
    obtain ⟨r₁, rfl⟩ := hra
    simp [reg_of_not_namesRegister hrb, bind, Except.bind]
  · simp [reg_of_not_namesRegister hra, bind, Except.bind]

theorem regRegImm_of_not_literalWithin (r₁ r₂ : RegIndex) {t : Text} (ht : Clean t)
    (h : ¬ LiteralWithin lo hi t) :
    regRegImm lo hi Tables.rtab [regToken r₁, regToken r₂, t] = .error .immediateOutOfRange := by
  rw [regRegImm, regToken, regToken,
    threeOperands_of_clean (clean_regName r₁) (clean_regName r₂) ht]
  simp [imm_of_not_literalWithin h, bind, Except.bind]

end Sys2Proof.Machine
end

section
/-! SUPPORT. The meaning of an instruction whose row reads two registers and an immediate, for every
operand list: the word it makes of them, and its errors in the order of R260. -/

namespace Sys2Proof.Machine

/-- The branch of the row `d` reads two registers and an immediate between the bounds, and `word` is
the word it makes of them. -/
def ReadsRegRegImm (d : Descriptor) (lo hi : Int) (word : RegIndex × RegIndex × Int → Word) : Prop :=
  ∀ ops, encodeOperands d Tables.rtab ops = word <$> regRegImm lo hi Tables.rtab ops

/-- Every operand list that is not two registers and an immediate between the bounds is answered with
the error that comes first: its punctuation, then a register text, then the immediate. -/
def RejectsOtherThanRegRegImm (mk : List Text → Instr) (lo hi : Int) (s : State) : Prop :=
  (∀ ops, ¬ ThreeShape ops → exec (mk ops) s = .next (raise .malformedOperands s)) ∧
  (∀ a b c : Text, Clean a → Clean b → Clean c → ¬ (NamesRegister a ∧ NamesRegister b) →
    exec (mk [sepToken a, sepToken b, c]) s = .next (raise .unknownRegister s)) ∧
  (∀ (r₁ r₂ : RegIndex) (t : Text), Clean t → ¬ LiteralWithin lo hi t →
    exec (mk [regToken r₁, regToken r₂, t]) s = .next (raise .immediateOutOfRange s))

variable {mk : List Text → Instr} {d : Descriptor} {s : State} {lo hi : Int}
  {word : RegIndex × RegIndex × Int → Word}

theorem exec_of_readsRegRegImm_of_literal (hrow : HasRow mk d) (hs : TablesBuilt s)
    (hd : ReadsRegRegImm d lo hi word) (r₁ r₂ : RegIndex) {t : Text} {v : Int}
    (ht : parseInt t = some v) (hlo : lo ≤ v) (hhi : v ≤ hi) :
    exec (mk [regToken r₁, regToken r₂, t]) s = .next (emit (word (r₁, r₂, v)) s) := by
  rw [exec_of_hasRow hrow hs, hd, regRegImm_of_literal r₁ r₂ ht hlo hhi]
  rfl

theorem exec_of_readsRegRegImm_of_error (hrow : HasRow mk d) (hs : TablesBuilt s)
    (hd : ReadsRegRegImm d lo hi word) {ops : List Text} {e : ErrorKind}
    (h : regRegImm lo hi Tables.rtab ops = .error e) :
    exec (mk ops) s = .next (raise e s) := by
  rw [exec_of_hasRow hrow hs, hd, h]
  rfl

theorem rejectsOtherThanRegRegImm (hrow : HasRow mk d) (hs : TablesBuilt s)
    (hd : ReadsRegRegImm d lo hi word) : RejectsOtherThanRegRegImm mk lo hi s := by
  have raises {ops e} := exec_of_readsRegRegImm_of_error (ops := ops) (e := e) hrow hs hd
  exact ⟨fun _ hops => raises (regRegImm_of_not_threeShape hops),
    fun _ _ _ ha hb hc hnames => raises (regRegImm_of_not_namesRegister ha hb hc hnames),
    fun r₁ r₂ _ ht hlit => raises (regRegImm_of_not_literalWithin r₁ r₂ ht hlit)⟩

end Sys2Proof.Machine
end

section
/-! SUPPORT. The two branches of format I and the fixed bits of their words (R72, R81, R180, R181). -/

namespace Sys2Proof.Machine

variable (opcode : BitVec 7) (funct3 : BitVec 3) (funct7 : BitVec 7) (rd rs1 : RegIndex)

theorem readsRegRegImm_I :
    ReadsRegRegImm ⟨opcode, .I funct3⟩ (-2048) 2047
      fun p => assembleI opcode funct3 p.1 p.2.1 (enc 12 p.2.2) := by
  intro ops
  simp only [encodeOperands, encodeI, regRegImm, map_bind, map_pure]

theorem readsRegRegImm_shift :
    ReadsRegRegImm ⟨opcode, .shift funct3 funct7⟩ 0 31
      fun p => assembleI opcode funct3 p.1 p.2.1 (funct7 ++ uenc 5 p.2.2) := by
  intro ops
  simp only [encodeOperands, encodeIshift, regRegImm, map_bind, map_pure]

/-- The conjunction of two words of format I is taken field by field. -/
theorem assembleI_and (opcode' : BitVec 7) (funct3' : BitVec 3) (rd' rs1' : RegIndex)
    (field field' : BitVec 12) :
    assembleI opcode funct3 rd rs1 field &&& assembleI opcode' funct3' rd' rs1' field' =
      assembleI (opcode &&& opcode') (funct3 &&& funct3') (rd &&& rd') (rs1 &&& rs1')
        (field &&& field') := by
  simp only [assembleI, ← BitVec.and_append]

/-- The mask of the generic path keeps the opcode and funct3 and clears the registers and the whole
12-bit field. -/
theorem assembleI_and_mask (field : BitVec 12) :
    assembleI opcode funct3 rd rs1 field &&& 0x0000707F#32 =
      assembleI opcode funct3 0#5 0#5 0#12 := by
  have mask : 0x0000707F#32 =
      assembleI (BitVec.allOnes 7) (BitVec.allOnes 3) 0#5 0#5 0#12 := by decide
  rw [mask, assembleI_and]
  simp only [BitVec.and_allOnes, BitVec.and_zero]

/-- A shift-immediate has the layout of format R, with the amount in the place of rs2 (R81). -/
theorem assembleI_shift (amount : BitVec 5) :
    assembleI opcode funct3 rd rs1 (funct7 ++ amount) =
      assembleR opcode funct3 funct7 rd rs1 amount :=
  rfl

end Sys2Proof.Machine
end

section
/-! SUPPORT. The statements of spec/42_i_format.md. -/

namespace Sys2Proof.Machine

/-- Settles O22: each of the twelve mnemonics has its row of ITAB on the generic path, which reads two
registers and a signed 12-bit immediate. -/
theorem iFormatGenericMeanings : Obligations.IFormatGenericMeanings := by
  intro s hs row hrow
  have hdesc : HasRow row.1 ⟨row.2.1, .I row.2.2.1⟩ := by
    fin_cases hrow <;> exact fun _ => ⟨rfl, rfl⟩
  have hmatch : assembleI row.2.1 row.2.2.1 0#5 0#5 0#12 = row.2.2.2 := by
    fin_cases hrow <;> rfl
  have hreads := readsRegRegImm_I row.2.1 row.2.2.1
  refine ⟨fun rd rs1 t v ht hlo hhi => ⟨assembleI row.2.1 row.2.2.1 rd rs1 (enc 12 v), ?_, rfl, ?_⟩,
    rejectsOtherThanRegRegImm hdesc hs hreads⟩
  · rw [exec_of_readsRegRegImm_of_literal hdesc hs hreads rd rs1 ht hlo hhi]; rfl
  · rw [assembleI_and_mask, hmatch]

/-- Settles O23: each of the three mnemonics has its row of ITAB on the shift path, which reads two
registers and an amount up to 31, and puts the row's funct7 above the amount. -/
theorem shiftImmediateMeanings : Obligations.ShiftImmediateMeanings := by
  intro s hs row hrow
  have hdesc : HasRow row.1 ⟨0b0010011#7, .shift row.2.1 row.2.2.1⟩ := by
    fin_cases hrow <;> exact fun _ => ⟨rfl, rfl⟩
  have hmatch : assembleR 0b0010011#7 row.2.1 row.2.2.1 0#5 0#5 0#5 = row.2.2.2 := by
    fin_cases hrow <;> rfl
  have hreads := readsRegRegImm_shift 0b0010011#7 row.2.1 row.2.2.1
  refine ⟨fun rd rs1 t n ht hn =>
      ⟨assembleI 0b0010011#7 row.2.1 rd rs1 (row.2.2.1 ++ uenc 5 n), ?_, rfl, ?_⟩,
    rejectsOtherThanRegRegImm hdesc hs hreads⟩
  · rw [exec_of_readsRegRegImm_of_literal hdesc hs hreads rd rs1 ht (by omega) (by omega)]; rfl
  · rw [assembleI_shift, assembleR_and_mask, hmatch]

end Sys2Proof.Machine
end

section
/-! SUPPORT. The branch of format S: the word of two registers and an offset, its fixed bits, and
the errors of operand texts whose punctuation is accepted (R73, R210, R260). -/

namespace Sys2Proof.Machine

theorem storeOperands_of_clean {a b c : Text} (ha : Clean a) (hb : Clean b) (hc : Clean c) :
    storeOperands [sepToken a, storeToken b c] = .ok (a, b, c) :=
  (storeOperands_eq_ok_iff _ _ _ _).mpr ⟨rfl, ha, hb, hc⟩

variable (opcode : BitVec 7) (funct3 : BitVec 3) (rs2 rs1 : RegIndex)

@[simp] theorem encodeOperands_S (rtab : List (Text × RegIndex)) (ops : List Text) :
    encodeOperands ⟨opcode, .S funct3⟩ rtab ops = encodeS opcode funct3 rtab ops :=
  rfl

/-- The conjunction of two words of format S is taken field by field. -/
theorem assembleS_and (opcode' : BitVec 7) (funct3' : BitVec 3) (rs2' rs1' : RegIndex)
    (i i' : BitVec 12) :
    assembleS opcode funct3 rs2 rs1 i &&& assembleS opcode' funct3' rs2' rs1' i' =
      assembleS (opcode &&& opcode') (funct3 &&& funct3') (rs2 &&& rs2') (rs1 &&& rs1')
        (i &&& i') := by
  simp only [assembleS, BitVec.extractLsb_and, ← BitVec.and_append]

/-- The mask of format S keeps the opcode and funct3 and clears the registers and both parts of the
offset. -/
theorem assembleS_and_mask (i : BitVec 12) :
    assembleS opcode funct3 rs2 rs1 i &&& 0x0000707F#32 = assembleS opcode funct3 0#5 0#5 0#12 := by
  have mask : 0x0000707F#32 =
      assembleS (BitVec.allOnes 7) (BitVec.allOnes 3) 0#5 0#5 0#12 := by decide
  rw [mask, assembleS_and]
  simp only [BitVec.and_allOnes, BitVec.and_zero]

theorem encodeS_of_literal {t : Text} {v : Int} (ht : parseInt t = some v)
    (hlo : -2048 ≤ v) (hhi : v ≤ 2047) :
    encodeS opcode funct3 Tables.rtab [regToken rs2, storeToken t (regName rs1)] =
      .ok (assembleS opcode funct3 rs2 rs1 (enc 12 v)) :=
  (encodeS_eq_ok_iff _ _ _ _ _).mpr
    ⟨_, _, _, ⟨rfl, clean_regName rs2, clean_of_parseInt ht, clean_regName rs1⟩,
      rs2, rtab_lookup_regName rs2, rs1, rtab_lookup_regName rs1, v, ⟨ht, hlo, hhi⟩, rfl⟩

/-- Both registers come before the offset, so the text of the offset does not matter (R260). -/
theorem encodeS_of_not_namesRegister {a b c : Text} (ha : Clean a) (hb : Clean b) (hc : Clean c)
    (h : ¬ (NamesRegister a ∧ NamesRegister c)) :
    encodeS opcode funct3 Tables.rtab [sepToken a, storeToken b c] = .error .unknownRegister := by
  rw [encodeS, storeOperands_of_clean ha hb hc]
  by_cases hra : NamesRegister a
  · have hrc : ¬ NamesRegister c := fun hrc => h ⟨hra, hrc⟩
    obtain ⟨rs2, rfl⟩ := hra
    simp [reg_of_not_namesRegister hrc, bind, Except.bind]
  · simp [reg_of_not_namesRegister hra, bind, Except.bind]

theorem encodeS_of_not_literalWithin {t : Text} (ht : Clean t)
    (h : ¬ LiteralWithin (-2048) 2047 t) :
    encodeS opcode funct3 Tables.rtab [regToken rs2, storeToken t (regName rs1)] =
      .error .immediateOutOfRange := by
  rw [encodeS, regToken, storeOperands_of_clean (clean_regName rs2) ht (clean_regName rs1)]
  simp [imm_of_not_literalWithin h, bind, Except.bind]

end Sys2Proof.Machine
end

section
/-! SUPPORT. The statement of spec/43_s_format.md. -/

namespace Sys2Proof.Machine

/-- Settles O24: each of the three mnemonics has its row of ITAB, with the opcode of format S and
the row's funct3, so the four clauses are those of the branch `encodeS`. -/
theorem sFormatMeanings : Obligations.SFormatMeanings := by
  intro s hs row hrow
  have hdesc : HasRow row.1 ⟨0b0100011#7, .S row.2.1⟩ := by
    fin_cases hrow <;> exact fun _ => ⟨rfl, rfl⟩
  have hmatch : assembleS 0b0100011#7 row.2.1 0#5 0#5 0#12 = row.2.2 := by
    fin_cases hrow <;> rfl
  have hexec (ops : List Text) : exec (row.1 ops) s =
      .next (answer (resultOf (encodeS 0b0100011#7 row.2.1 Tables.rtab ops)) s) := by
    rw [exec_of_hasRow hdesc hs, encodeOperands_S]
  refine ⟨fun rs2 rs1 t v ht hlo hhi =>
      ⟨assembleS 0b0100011#7 row.2.1 rs2 rs1 (enc 12 v), ?_, rfl, ?_⟩,
    fun ops hops => ?_, fun a b c ha hb hc hnames => ?_, fun rs2 rs1 t ht hlit => ?_⟩
  · rw [hexec, encodeS_of_literal _ _ rs2 rs1 ht hlo hhi]; rfl
  · rw [assembleS_and_mask, hmatch]
  · exact exec_of_hasRow_of_not_operandShape hdesc hs hops
  · rw [hexec, encodeS_of_not_namesRegister _ _ ha hb hc hnames]; rfl
  · rw [hexec, encodeS_of_not_literalWithin _ _ rs2 rs1 ht hlit]; rfl

end Sys2Proof.Machine
end

section
/-! SUPPORT. The branch of format B and the fixed bits of its words (R74, R220). -/

namespace Sys2Proof.Machine

variable (opcode : BitVec 7) (funct3 : BitVec 3) (rs1 rs2 : RegIndex)

theorem readsRegRegImm_B :
    ReadsRegRegImm ⟨opcode, .B funct3⟩ (-4096) 4095
      fun p => assembleB opcode funct3 p.1 p.2.1 (enc 13 p.2.2) := by
  intro ops
  simp only [encodeOperands, encodeB, regRegImm, map_bind, map_pure]

/-- The conjunction of two words of format B is taken field by field. -/
theorem assembleB_and (opcode' : BitVec 7) (funct3' : BitVec 3) (rs1' rs2' : RegIndex)
    (i i' : BitVec 13) :
    assembleB opcode funct3 rs1 rs2 i &&& assembleB opcode' funct3' rs1' rs2' i' =
      assembleB (opcode &&& opcode') (funct3 &&& funct3') (rs1 &&& rs1') (rs2 &&& rs2')
        (i &&& i') := by
  simp only [assembleB, BitVec.extractLsb_and, ← BitVec.and_append]

/-- The mask of format B keeps the opcode and funct3 and clears the registers and all four parts of
the offset. -/
theorem assembleB_and_mask (i : BitVec 13) :
    assembleB opcode funct3 rs1 rs2 i &&& 0x0000707F#32 = assembleB opcode funct3 0#5 0#5 0#13 := by
  have mask : 0x0000707F#32 =
      assembleB (BitVec.allOnes 7) (BitVec.allOnes 3) 0#5 0#5 0#13 := by decide
  rw [mask, assembleB_and]
  simp only [BitVec.and_allOnes, BitVec.and_zero]

end Sys2Proof.Machine
end

section
/-! SUPPORT. The statement of spec/44_b_format.md. -/

namespace Sys2Proof.Machine

/-- Settles O25: each of the six mnemonics has its row of ITAB, with the opcode of format B and the
row's funct3, whose branch reads two registers and a signed 13-bit offset. -/
theorem bFormatMeanings : Obligations.BFormatMeanings := by
  intro s hs row hrow
  have hdesc : HasRow row.1 ⟨0b1100011#7, .B row.2.1⟩ := by
    fin_cases hrow <;> exact fun _ => ⟨rfl, rfl⟩
  have hmatch : assembleB 0b1100011#7 row.2.1 0#5 0#5 0#13 = row.2.2 := by
    fin_cases hrow <;> rfl
  have hreads := readsRegRegImm_B 0b1100011#7 row.2.1
  refine ⟨fun rs1 rs2 t v ht hlo hhi =>
      ⟨assembleB 0b1100011#7 row.2.1 rs1 rs2 (enc 13 v), ?_, rfl, ?_⟩,
    rejectsOtherThanRegRegImm hdesc hs hreads⟩
  · rw [exec_of_readsRegRegImm_of_literal hdesc hs hreads rs1 rs2 ht hlo hhi]; rfl
  · rw [assembleB_and_mask, hmatch]

end Sys2Proof.Machine
end

section
/-! SUPPORT. A register and an immediate: what the operand grammar that formats J and U share accepts,
and the error it raises, whatever word is made of the operands (R102, R125 to R138, R260). -/

namespace Sys2Proof.Machine

theorem twoOperands_of_clean {a b : Text} (ha : Clean a) (hb : Clean b) :
    twoOperands [sepToken a, b] = .ok (a, b) :=
  (twoOperands_eq_ok_iff _ _ _).mpr ⟨rfl, ha, hb⟩

/-- Steps 2 to 4 of R120 for a register and an immediate between the bounds. -/
def regImm (lo hi : Int) (rtab : List (Text × RegIndex)) (ops : List Text) :
    Except ErrorKind (RegIndex × Int) := do
  let (a, b) ← twoOperands ops
  let r ← reg rtab a
  let v ← imm lo hi b
  return (r, v)

variable {lo hi : Int}

theorem regImm_of_literal (r : RegIndex) {t : Text} {v : Int} (ht : parseInt t = some v)
    (hlo : lo ≤ v) (hhi : v ≤ hi) :
    regImm lo hi Tables.rtab [regToken r, t] = .ok (r, v) := by
  have himm : imm lo hi t = .ok v := (imm_eq_ok_iff _ _ _ _).mpr ⟨ht, hlo, hhi⟩
  rw [regImm, regToken, twoOperands_of_clean (clean_regName r) (clean_of_parseInt ht)]
  simp [himm, bind, Except.bind, pure, Except.pure]

theorem regImm_of_not_twoShape {ops : List Text} (h : ¬ TwoShape ops) :
    regImm lo hi Tables.rtab ops = .error .malformedOperands := by
  rw [regImm, twoOperands_of_not_twoShape h]
  rfl

/-- The register comes before the immediate, so the text of the immediate does not matter (R136). -/
theorem regImm_of_not_namesRegister {a b : Text} (ha : Clean a) (hb : Clean b)
    (h : ¬ NamesRegister a) :
    regImm lo hi Tables.rtab [sepToken a, b] = .error .unknownRegister := by
  rw [regImm, twoOperands_of_clean ha hb]
  simp [reg_of_not_namesRegister h, bind, Except.bind]

theorem regImm_of_not_literalWithin (r : RegIndex) {t : Text} (ht : Clean t)
    (h : ¬ LiteralWithin lo hi t) :
    regImm lo hi Tables.rtab [regToken r, t] = .error .immediateOutOfRange := by
  rw [regImm, regToken, twoOperands_of_clean (clean_regName r) ht]
  simp [imm_of_not_literalWithin h, bind, Except.bind]

end Sys2Proof.Machine
end

section
/-! SUPPORT. The meaning of an instruction whose row reads a register and an immediate, for every
operand list: the word it makes of them, and its errors in the order of R260. -/

namespace Sys2Proof.Machine

/-- The branch of the row `d` reads a register and an immediate between the bounds, and `word` is the
word it makes of them. -/
def ReadsRegImm (d : Descriptor) (lo hi : Int) (word : RegIndex × Int → Word) : Prop :=
  ∀ ops, encodeOperands d Tables.rtab ops = word <$> regImm lo hi Tables.rtab ops

/-- Every operand list that is not a register and an immediate between the bounds is answered with
the error that comes first: its punctuation, then the register text, then the immediate. -/
def RejectsOtherThanRegImm (mk : List Text → Instr) (lo hi : Int) (s : State) : Prop :=
  (∀ ops, ¬ TwoShape ops → exec (mk ops) s = .next (raise .malformedOperands s)) ∧
  (∀ a b : Text, Clean a → Clean b → ¬ NamesRegister a →
    exec (mk [sepToken a, b]) s = .next (raise .unknownRegister s)) ∧
  (∀ (r : RegIndex) (t : Text), Clean t → ¬ LiteralWithin lo hi t →
    exec (mk [regToken r, t]) s = .next (raise .immediateOutOfRange s))

variable {mk : List Text → Instr} {d : Descriptor} {s : State} {lo hi : Int}
  {word : RegIndex × Int → Word}

theorem exec_of_readsRegImm_of_literal (hrow : HasRow mk d) (hs : TablesBuilt s)
    (hd : ReadsRegImm d lo hi word) (r : RegIndex) {t : Text} {v : Int}
    (ht : parseInt t = some v) (hlo : lo ≤ v) (hhi : v ≤ hi) :
    exec (mk [regToken r, t]) s = .next (emit (word (r, v)) s) := by
  rw [exec_of_hasRow hrow hs, hd, regImm_of_literal r ht hlo hhi]
  rfl

theorem exec_of_readsRegImm_of_error (hrow : HasRow mk d) (hs : TablesBuilt s)
    (hd : ReadsRegImm d lo hi word) {ops : List Text} {e : ErrorKind}
    (h : regImm lo hi Tables.rtab ops = .error e) :
    exec (mk ops) s = .next (raise e s) := by
  rw [exec_of_hasRow hrow hs, hd, h]
  rfl

theorem rejectsOtherThanRegImm (hrow : HasRow mk d) (hs : TablesBuilt s)
    (hd : ReadsRegImm d lo hi word) : RejectsOtherThanRegImm mk lo hi s := by
  have raises {ops e} := exec_of_readsRegImm_of_error (ops := ops) (e := e) hrow hs hd
  exact ⟨fun _ hops => raises (regImm_of_not_twoShape hops),
    fun _ _ ha hb hname => raises (regImm_of_not_namesRegister ha hb hname),
    fun r _ ht hlit => raises (regImm_of_not_literalWithin r ht hlit)⟩

end Sys2Proof.Machine
end

section
/-! SUPPORT. The branch of format J and the fixed bits of its words (R75, R235). -/

namespace Sys2Proof.Machine

variable (opcode : BitVec 7) (rd : RegIndex)

theorem readsRegImm_J :
    ReadsRegImm ⟨opcode, .J⟩ (-1048576) 1048575
      fun p => assembleJ opcode p.1 (enc 21 p.2) := by
  intro ops
  simp only [encodeOperands, encodeJ, regImm, map_bind, map_pure]

/-- The conjunction of two words of format J is taken field by field. -/
theorem assembleJ_and (opcode' : BitVec 7) (rd' : RegIndex) (i i' : BitVec 21) :
    assembleJ opcode rd i &&& assembleJ opcode' rd' i' =
      assembleJ (opcode &&& opcode') (rd &&& rd') (i &&& i') := by
  simp only [assembleJ, BitVec.extractLsb_and, ← BitVec.and_append]

/-- The mask of format J keeps the opcode and clears the register and all four parts of the offset. -/
theorem assembleJ_and_mask (i : BitVec 21) :
    assembleJ opcode rd i &&& 0x0000007F#32 = assembleJ opcode 0#5 0#21 := by
  have mask : 0x0000007F#32 = assembleJ (BitVec.allOnes 7) 0#5 0#21 := by decide
  rw [mask, assembleJ_and]
  simp only [BitVec.and_allOnes, BitVec.and_zero]

end Sys2Proof.Machine
end

section
/-! SUPPORT. The statement of spec/45_j_format.md. -/

namespace Sys2Proof.Machine

/-- Settles O26: `jal` has its row of ITAB, with the opcode of format J, whose branch reads a register
and a signed 21-bit offset. -/
theorem jalMeaning : Obligations.JalMeaning := by
  intro s hs
  have hdesc : HasRow .jal ⟨0b1101111#7, .J⟩ := fun _ => ⟨rfl, rfl⟩
  have hmatch : assembleJ 0b1101111#7 0#5 0#21 = 0x0000006F#32 := by decide
  have hreads := readsRegImm_J 0b1101111#7
  refine ⟨fun rd t v ht hlo hhi => ⟨assembleJ 0b1101111#7 rd (enc 21 v), ?_, rfl, ?_⟩,
    rejectsOtherThanRegImm hdesc hs hreads⟩
  · rw [exec_of_readsRegImm_of_literal hdesc hs hreads rd ht hlo hhi]; rfl
  · rw [assembleJ_and_mask, hmatch]

end Sys2Proof.Machine
end

section
/-! SUPPORT. The branch of format U and the fixed bits of its words (R76, R240). -/

namespace Sys2Proof.Machine

variable (opcode : BitVec 7) (rd : RegIndex)

theorem readsRegImm_U :
    ReadsRegImm ⟨opcode, .U⟩ (-524288) 524287
      fun p => assembleU opcode p.1 (enc 20 p.2) := by
  intro ops
  simp only [encodeOperands, encodeU, regImm, map_bind, map_pure]

/-- The conjunction of two words of format U is taken field by field. -/
theorem assembleU_and (opcode' : BitVec 7) (rd' : RegIndex) (i i' : BitVec 20) :
    assembleU opcode rd i &&& assembleU opcode' rd' i' =
      assembleU (opcode &&& opcode') (rd &&& rd') (i &&& i') := by
  simp only [assembleU, ← BitVec.and_append]

/-- The mask of format U keeps the opcode and clears the register and the immediate field. -/
theorem assembleU_and_mask (i : BitVec 20) :
    assembleU opcode rd i &&& 0x0000007F#32 = assembleU opcode 0#5 0#20 := by
  have mask : 0x0000007F#32 = assembleU (BitVec.allOnes 7) 0#5 0#20 := by decide
  rw [mask, assembleU_and]
  simp only [BitVec.and_allOnes, BitVec.and_zero]

end Sys2Proof.Machine
end

section
/-! SUPPORT. The statement of spec/46_u_format.md. -/

namespace Sys2Proof.Machine

/-- Settles O27: `lui` and `auipc` have their rows of ITAB, each with an opcode of its own, whose
branch reads a register and a signed 20-bit immediate, and puts it above the register as it is (D9). -/
theorem uFormatMeanings : Obligations.UFormatMeanings := by
  intro s hs row hrow
  have hdesc : HasRow row.1 ⟨row.2.1, .U⟩ := by
    fin_cases hrow <;> exact fun _ => ⟨rfl, rfl⟩
  have hmatch : assembleU row.2.1 0#5 0#20 = row.2.2 := by
    fin_cases hrow <;> rfl
  have hreads := readsRegImm_U row.2.1
  refine ⟨fun rd t v ht hlo hhi => ⟨assembleU row.2.1 rd (enc 20 v), ?_, rfl, ?_⟩,
    rejectsOtherThanRegImm hdesc hs hreads⟩
  · rw [exec_of_readsRegImm_of_literal hdesc hs hreads rd ht hlo hhi]; rfl
  · rw [assembleU_and_mask, hmatch]

end Sys2Proof.Machine
end

section
/-! SUPPORT. On tables as built a step is the encode operation: the line decoder knows exactly the keys
of ITAB, so its error is the answer of `encode(line)` (R120 to R123). -/

namespace Sys2Proof.Machine

/-- ITAB has the keys that the line decoder knows, in the same order (R3, R22). -/
theorem itab_keys_eq_named_keys :
    Tables.itab.map Prod.fst = Instr.named.map Prod.fst := rfl

/-- The lookup of a text fails exactly when the text is no key. -/
theorem lookup_eq_none_iff_notMem_keys {α : Type} {l : List (Text × α)} {m : Text} :
    l.lookup m = none ↔ m ∉ l.map Prod.fst := by
  rw [List.lookup_eq_none_iff, List.mem_map]
  constructor
  · rintro h ⟨p, hp, rfl⟩
    simpa using h p hp
  · intro h p hp
    exact bne_iff_ne.mpr fun hm => h ⟨p, hp, hm.symm⟩

/-- A text that names no instruction is no key of ITAB (R123). -/
theorem itab_lookup_eq_none_of_ofKey {m : Text} {ops : List Text} (h : Instr.ofKey m ops = none) :
    Tables.itab.lookup m = none := by
  have hnamed : Instr.named.lookup m = none := Option.map_eq_none_iff.mp h
  rw [lookup_eq_none_iff_notMem_keys] at hnamed ⊢
  rwa [itab_keys_eq_named_keys]

/-- The decoder's error on a line is the answer of `encode(line)` (R122, R123). -/
theorem encodeLine_of_decodeLine_error {line : Text} {e : ErrorKind}
    (h : decodeLine line = .error e) (rtab : List (Text × RegIndex)) :
    encodeLine Tables.itab rtab line = .err e := by
  obtain rfl := eq_unknownMnemonic_of_decodeLine_error h
  cases hs : splitWs line with
  | nil => simp only [encodeLine, hs]
  | cons m ops =>
    cases hk : Instr.ofKey m ops with
    | none => simp only [encodeLine, hs, itab_lookup_eq_none_of_ofKey hk]
    | some i => simp [decodeLine, hs, hk] at h

variable {s : State}

/-- A step on tables as built answers the oldest waiting line with `encode(line)` (R120). -/
theorem step_of_tablesBuilt {line : Text} {rest : List Text} (hs : TablesBuilt s)
    (hp : s.pending = line :: rest) :
    step s = .next (answer (encodeLine s.itab s.rtab line) { s with pending := rest }) := by
  cases hd : decodeLine line with
  | ok i => exact step_of_decodeLine_ok hp hd
  | error e =>
    rw [step_of_decodeLine_error hp hd, hs.itab, encodeLine_of_decodeLine_error hd]
    rfl

/-- A step keeps the tables as built (R20). -/
theorem TablesBuilt.of_step {t : State} (hs : TablesBuilt s) (h : step s = .next t) :
    TablesBuilt t := by
  obtain ⟨hitab, hrtab⟩ := step_tables h
  exact ⟨hitab.trans hs.itab, hrtab.trans hs.rtab⟩

/-- A run begins with its first step. -/
theorem run_succ_of_step_eq_next {t : State} (h : step s = .next t) (k : Nat) :
    Host.Core.run core (k + 1) s = Host.Core.run core k t := by
  have hcore : core.step s = .next t := h
  simp only [Host.Core.run, hcore]

/-- A batch leaves no trace beside its last answer: the run over the lines before a line and the line
itself ends as one step on that line alone would (R59, R262). -/
theorem run_batch (before : List Text) {line : Text} {rest : List Text} (hs : TablesBuilt s)
    (hp : s.pending = before ++ line :: rest) :
    Host.Core.run core (before.length + 1) s =
      .next (answer (encodeLine s.itab s.rtab line) { s with pending := rest }) := by
  induction before generalizing s with
  | nil => exact run_succ_of_step_eq_next (step_of_tablesBuilt hs hp) 0
  | cons first before ih =>
    have hstep := step_of_tablesBuilt hs hp
    rw [List.length_cons, run_succ_of_step_eq_next hstep, ih (hs.of_step hstep) rfl]
    rfl

end Sys2Proof.Machine
end

section
/-! SUPPORT. The statements of spec/60_exceptions.md. -/

namespace Sys2Proof.Machine

/-- Settles O12, by induction on the lines before: each step keeps the tables as built, and its answer,
a word or an error, is written over by the next one. -/
theorem batchAnswersEachLineAlone : Obligations.BatchAnswersEachLineAlone :=
  fun _ before _ _ hs hp => ⟨_, run_batch before hs hp, answer_pending _ _, answer_result _ _,
    answer_itab _ _, answer_rtab _ _⟩

/-- Settles O15: each of the 37 meanings is the encode operation of its own mnemonic, which ends in an
answer whether it finds a word or an error. -/
theorem meaningChangesResultOnly : Obligations.MeaningChangesResultOnly := exec_eq_next

end Sys2Proof.Machine
end

section
/-! SUPPORT. The bits of a two's complement number (R11): each depends on the number alone and not on
the width, and without bit 0 they are those of half the number. -/

namespace Sys2Proof.Machine

/-- Bit `k` of `enc_N(v)` is the parity of `v` divided by `2^k`, rounded down. -/
theorem getLsbD_enc {N k : Nat} (v : Int) (hk : k < N) :
    (enc N v).getLsbD k = decide (v / 2 ^ k % 2 = 1) := by
  have hpow : (2 : Int) ^ N = 2 ^ k * (2 * 2 ^ (N - k - 1)) := by
    rw [← pow_succ', ← pow_add]
    congr 1
    omega
  have hdiv : v % 2 ^ N / 2 ^ k % 2 = v / 2 ^ k % 2 := by
    have hpos : (2 : Int) ^ k ≠ 0 := by positivity
    rw [hpow]
    conv_rhs => rw [← Int.emod_add_mul_ediv v (2 ^ k * (2 * 2 ^ (N - k - 1)))]
    rw [mul_assoc (2 ^ k), Int.add_mul_ediv_left _ _ hpos, mul_assoc 2, Int.add_mul_emod_self_left]
  rw [BitVec.getLsbD, Nat.testBit_eq_decide_div_mod_eq, decide_eq_decide, ← hdiv, ← enc_toNat]
  norm_cast

/-- A narrower number has the low bits of a wider one. -/
theorem getLsbD_imm32 {N k : Nat} (v : Int) (hN : N ≤ 32) (hk : k < N) :
    (imm32 v).getLsbD k = (enc N v).getLsbD k := by
  rw [getLsbD_enc v hk]
  exact getLsbD_enc v (hk.trans_le hN)

/-- Without bit 0 the number is halved. -/
theorem extractLsb'_enc (n : Nat) (v : Int) : (enc (n + 1) v).extractLsb' 1 n = enc n (v / 2) := by
  refine BitVec.eq_of_getLsbD_eq fun k hk => ?_
  rw [BitVec.getLsbD_extractLsb', getLsbD_enc v (by omega), getLsbD_enc _ hk, pow_add, pow_one,
    ← Int.ediv_ediv_of_nonneg (by decide)]
  simp [hk]

/-- Half of a number in range, followed by a bit 0, is the number with bit 0 cleared. -/
theorem toInt_enc_append_zero {n : Nat} {v : Int} (hn : 0 < n) (h₁ : -(2 : Int) ^ n ≤ v)
    (h₂ : v < 2 ^ n) : (enc n (v / 2) ++ 0#1).toInt = v - v % 2 := by
  obtain ⟨m, rfl⟩ : ∃ m, n = m + 1 := ⟨n - 1, by omega⟩
  rw [pow_succ] at h₁ h₂
  have hhalf : (enc (m + 1) (v / 2)).toInt = v / 2 :=
    enc_toInt hn (by simp only [Nat.add_sub_cancel]; omega) (by simp only [Nat.add_sub_cancel]; omega)
  rw [BitVec.toInt_append, hhalf]
  simp
  omega

/-- On its domain `uenc` writes the same bits as `enc` (R11). -/
theorem uenc_eq_enc (N : Nat) {v : Int} (h : 0 ≤ v) : uenc N v = enc N v := by
  obtain ⟨n, rfl⟩ := Int.eq_ofNat_of_zero_le h
  simp [uenc, enc]

end Sys2Proof.Machine
end

section
/-! SUPPORT. Each layout keeps its fields apart (R71 to R77, R86): the registers and the immediate can be
read back from an assembled word, and a word is assembled again from what is read in it. Each equation
is checked bit by bit: bit `k` of a field is the bit of the word at the field's place. -/

namespace Sys2Proof.Machine

variable (opcode : BitVec 7) (funct3 : BitVec 3) (funct7 : BitVec 7) (rd rs1 rs2 : RegIndex)

/-! Reading the operands back. -/

theorem readBack_assembleR :
    rdField (assembleR opcode funct3 funct7 rd rs1 rs2) = rd ∧
      rs1Field (assembleR opcode funct3 funct7 rd rs1 rs2) = rs1 ∧
      rs2Field (assembleR opcode funct3 funct7 rd rs1 rs2) = rs2 := by
  refine ⟨?_, ?_, ?_⟩ <;> refine BitVec.eq_of_getLsbD_eq fun k hk => ?_
  all_goals
    simp only [rdField, rs1Field, rs2Field, assembleR, BitVec.getLsbD_extractLsb,
      BitVec.getLsbD_append]
    grind

theorem readBack_assembleI (field : BitVec 12) :
    rdField (assembleI opcode funct3 rd rs1 field) = rd ∧
      rs1Field (assembleI opcode funct3 rd rs1 field) = rs1 ∧
      (assembleI opcode funct3 rd rs1 field).extractLsb 31 20 = field := by
  refine ⟨?_, ?_, ?_⟩ <;> refine BitVec.eq_of_getLsbD_eq fun k hk => ?_
  all_goals
    simp only [rdField, rs1Field, assembleI, BitVec.getLsbD_extractLsb, BitVec.getLsbD_append]
    grind

theorem readBack_assembleS (i : BitVec 12) :
    rs2Field (assembleS opcode funct3 rs2 rs1 i) = rs2 ∧
      rs1Field (assembleS opcode funct3 rs2 rs1 i) = rs1 ∧
      (assembleS opcode funct3 rs2 rs1 i).extractLsb 31 25 ++
        (assembleS opcode funct3 rs2 rs1 i).extractLsb 11 7 = i := by
  refine ⟨?_, ?_, ?_⟩ <;> refine BitVec.eq_of_getLsbD_eq fun k hk => ?_
  all_goals
    simp only [rs1Field, rs2Field, assembleS, BitVec.getLsbD_extractLsb, BitVec.getLsbD_append]
    grind

/-- Bit 0 of the offset has no place in the word, so it reads back as 0 (R74). -/
theorem readBack_assembleB (i : BitVec 13) :
    rs1Field (assembleB opcode funct3 rs1 rs2 i) = rs1 ∧
      rs2Field (assembleB opcode funct3 rs1 rs2 i) = rs2 ∧
      immediateOf .B (assembleB opcode funct3 rs1 rs2 i) = (i.extractLsb' 1 12 ++ 0#1).toInt := by
  refine ⟨?_, ?_, congrArg BitVec.toInt ?_⟩ <;> refine BitVec.eq_of_getLsbD_eq fun k hk => ?_
  all_goals
    simp only [rs1Field, rs2Field, assembleB, BitVec.getLsbD_extractLsb, BitVec.getLsbD_extractLsb',
      BitVec.getLsbD_append]
    grind

/-- Bit 0 of the offset has no place in the word, so it reads back as 0 (R75). -/
theorem readBack_assembleJ (i : BitVec 21) :
    rdField (assembleJ opcode rd i) = rd ∧
      immediateOf .J (assembleJ opcode rd i) = (i.extractLsb' 1 20 ++ 0#1).toInt := by
  refine ⟨?_, congrArg BitVec.toInt ?_⟩ <;> refine BitVec.eq_of_getLsbD_eq fun k hk => ?_
  all_goals
    simp only [rdField, assembleJ, BitVec.getLsbD_extractLsb, BitVec.getLsbD_extractLsb',
      BitVec.getLsbD_append]
    grind

theorem readBack_assembleU (i : BitVec 20) :
    rdField (assembleU opcode rd i) = rd ∧ (assembleU opcode rd i).extractLsb 31 12 = i := by
  refine ⟨?_, ?_⟩ <;> refine BitVec.eq_of_getLsbD_eq fun k hk => ?_
  all_goals
    simp only [rdField, assembleU, BitVec.getLsbD_extractLsb, BitVec.getLsbD_append]
    grind

/-! Assembling a word again from its fields. -/

theorem assembleR_fields (w : Word) :
    assembleR (w.extractLsb 6 0) (w.extractLsb 14 12) (w.extractLsb 31 25) (rdField w) (rs1Field w)
      (rs2Field w) = w := by
  refine BitVec.eq_of_getLsbD_eq fun k hk => ?_
  simp only [rdField, rs1Field, rs2Field, assembleR, BitVec.getLsbD_extractLsb, BitVec.getLsbD_append]
  grind

theorem assembleI_fields (w : Word) :
    assembleI (w.extractLsb 6 0) (w.extractLsb 14 12) (rdField w) (rs1Field w)
      (enc 12 (immediateOf .I w)) = w := by
  simp only [enc, immediateOf, BitVec.ofInt_toInt]
  refine BitVec.eq_of_getLsbD_eq fun k hk => ?_
  simp only [rdField, rs1Field, assembleI, BitVec.getLsbD_extractLsb, BitVec.getLsbD_append]
  grind

/-- A shift amount is read back from the place of rs2 (R81). -/
theorem assembleI_shift_fields (w : Word) :
    assembleI (w.extractLsb 6 0) (w.extractLsb 14 12) (rdField w) (rs1Field w)
      (w.extractLsb 31 25 ++ uenc 5 (immediateOf .shift w)) = w := by
  have amount : uenc 5 (immediateOf .shift w) = rs2Field w :=
    (BitVec.ofNat_toNat 5 (rs2Field w)).trans (BitVec.setWidth_eq _)
  rw [amount, assembleI_shift]
  exact assembleR_fields w

theorem assembleS_fields (w : Word) :
    assembleS (w.extractLsb 6 0) (w.extractLsb 14 12) (rs2Field w) (rs1Field w)
      (enc 12 (immediateOf .S w)) = w := by
  simp only [enc, immediateOf, BitVec.ofInt_toInt]
  refine BitVec.eq_of_getLsbD_eq fun k hk => ?_
  simp only [rs1Field, rs2Field, assembleS, BitVec.getLsbD_extractLsb, BitVec.getLsbD_append]
  grind

theorem assembleB_fields (w : Word) :
    assembleB (w.extractLsb 6 0) (w.extractLsb 14 12) (rs1Field w) (rs2Field w)
      (enc 13 (immediateOf .B w)) = w := by
  simp only [enc, immediateOf, BitVec.ofInt_toInt]
  refine BitVec.eq_of_getLsbD_eq fun k hk => ?_
  simp only [rs1Field, rs2Field, assembleB, BitVec.getLsbD_extractLsb, BitVec.getLsbD_append]
  grind

theorem assembleJ_fields (w : Word) :
    assembleJ (w.extractLsb 6 0) (rdField w) (enc 21 (immediateOf .J w)) = w := by
  simp only [enc, immediateOf, BitVec.ofInt_toInt]
  refine BitVec.eq_of_getLsbD_eq fun k hk => ?_
  simp only [rdField, assembleJ, BitVec.getLsbD_extractLsb, BitVec.getLsbD_append]
  grind

theorem assembleU_fields (w : Word) :
    assembleU (w.extractLsb 6 0) (rdField w) (enc 20 (immediateOf .U w)) = w := by
  simp only [enc, immediateOf, BitVec.ofInt_toInt]
  refine BitVec.eq_of_getLsbD_eq fun k hk => ?_
  simp only [rdField, assembleU, BitVec.getLsbD_extractLsb, BitVec.getLsbD_append]
  grind

end Sys2Proof.Machine
end

section
/-! SUPPORT. The value read back as an immediate from an assembled word (R86). -/

namespace Sys2Proof.Machine

variable (opcode : BitVec 7) (funct3 : BitVec 3) (funct7 : BitVec 7) (r₁ r₂ : RegIndex) {v : Int}

theorem immediateOf_assembleI (h₁ : -2048 ≤ v) (h₂ : v ≤ 2047) :
    immediateOf .I (assembleI opcode funct3 r₁ r₂ (enc 12 v)) = v := by
  rw [immediateOf, (readBack_assembleI _ _ _ _ _).2.2]
  exact enc_toInt (by decide) (by norm_num; omega) (by norm_num; omega)

theorem immediateOf_assembleI_shift (h₁ : 0 ≤ v) (h₂ : v ≤ 31) :
    immediateOf .shift (assembleI opcode funct3 r₁ r₂ (funct7 ++ uenc 5 v)) = v := by
  have amount := (readBack_assembleR opcode funct3 funct7 r₁ r₂ (uenc 5 v)).2.2
  have value := uenc_toNat (N := 5) h₁ (by norm_num; omega)
  rwa [← amount] at value

theorem immediateOf_assembleS (h₁ : -2048 ≤ v) (h₂ : v ≤ 2047) :
    immediateOf .S (assembleS opcode funct3 r₁ r₂ (enc 12 v)) = v := by
  rw [immediateOf, (readBack_assembleS _ _ _ _ _).2.2]
  exact enc_toInt (by decide) (by norm_num; omega) (by norm_num; omega)

theorem immediateOf_assembleB (h₁ : -4096 ≤ v) (h₂ : v ≤ 4095) :
    immediateOf .B (assembleB opcode funct3 r₁ r₂ (enc 13 v)) = v - v % 2 := by
  rw [(readBack_assembleB _ _ _ _ _).2.2, extractLsb'_enc]
  exact toInt_enc_append_zero (by decide) (by norm_num; omega) (by norm_num; omega)

theorem immediateOf_assembleJ (h₁ : -1048576 ≤ v) (h₂ : v ≤ 1048575) :
    immediateOf .J (assembleJ opcode r₁ (enc 21 v)) = v - v % 2 := by
  rw [(readBack_assembleJ _ _ _).2, extractLsb'_enc]
  exact toInt_enc_append_zero (by decide) (by norm_num; omega) (by norm_num; omega)

theorem immediateOf_assembleU (h₁ : -524288 ≤ v) (h₂ : v ≤ 524287) :
    immediateOf .U (assembleU opcode r₁ (enc 20 v)) = v := by
  rw [immediateOf, (readBack_assembleU _ _ _).2]
  exact enc_toInt (by decide) (by norm_num; omega) (by norm_num; omega)

end Sys2Proof.Machine
end

section
/-! SUPPORT. The operands of an instruction as values, whatever its format: their canonical tokens, the
word assembled from them with the fixed bits of a row of ITAB, and the values read back from a word
(R71 to R76, R86, R102). -/

namespace Sys2Proof

open Machine

/-- The operands of an instruction of any format; a format leaves those it has no place for unused. -/
structure OperandValues where
  rd : RegIndex
  rs1 : RegIndex
  rs2 : RegIndex
  imm : Int

/-- The operands that leave only the fixed bits of a word. -/
def OperandValues.zero : OperandValues := ⟨0#5, 0#5, 0#5, 0⟩

/-- The operands that stand in a word (R86). -/
def OperandValues.ofWord (shape : Shape) (w : Word) : OperandValues :=
  ⟨rdField w, rs1Field w, rs2Field w, immediateOf shape w⟩

/-- The canonical operand tokens, in the order of R102. -/
def OperandValues.tokens (o : OperandValues) : Shape → List Text
  | .R => [regToken o.rd, regToken o.rs1, regName o.rs2]
  | .I | .shift => [regToken o.rd, regToken o.rs1, intText o.imm]
  | .S => [regToken o.rs2, storeToken (intText o.imm) (regName o.rs1)]
  | .B => [regToken o.rs1, regToken o.rs2, intText o.imm]
  | .U | .J => [regToken o.rd, intText o.imm]

/-- The range of an immediate (R79). -/
def Shape.InRange : Shape → Int → Prop
  | .R, _ => True
  | .I, v | .S, v => -2048 ≤ v ∧ v ≤ 2047
  | .shift, v => 0 ≤ v ∧ v ≤ 31
  | .B, v => -4096 ≤ v ∧ v ≤ 4095
  | .J, v => -1048576 ≤ v ∧ v ≤ 1048575
  | .U, v => -524288 ≤ v ∧ v ≤ 524287

/-- The word has no place for bit 0 of the immediate (R74, R75). -/
def Shape.dropsBitZero : Shape → Bool
  | .B | .J => true
  | .R | .I | .shift | .S | .U => false

/-- The bits that are the same in all words of a row (R87). -/
def Shape.mask : Shape → Word
  | .R | .shift => 0xFE00707F#32
  | .I | .S | .B => 0x0000707F#32
  | .U | .J => 0x0000007F#32

/-- The layout of the opcode table that a layout of ITAB is written in (R71 to R76). -/
def Layout.shape : Layout → Shape
  | .R _ _ => .R
  | .I _ => .I
  | .shift _ _ => .shift
  | .S _ => .S
  | .B _ => .B
  | .U => .U
  | .J => .J

/-- The word of a row of ITAB and operands: step 5 of R120. -/
def Descriptor.assemble : Descriptor → OperandValues → Word
  | ⟨opcode, .R funct3 funct7⟩, o => assembleR opcode funct3 funct7 o.rd o.rs1 o.rs2
  | ⟨opcode, .I funct3⟩, o => assembleI opcode funct3 o.rd o.rs1 (enc 12 o.imm)
  | ⟨opcode, .shift funct3 funct7⟩, o => assembleI opcode funct3 o.rd o.rs1 (funct7 ++ uenc 5 o.imm)
  | ⟨opcode, .S funct3⟩, o => assembleS opcode funct3 o.rs2 o.rs1 (enc 12 o.imm)
  | ⟨opcode, .B funct3⟩, o => assembleB opcode funct3 o.rs1 o.rs2 (enc 13 o.imm)
  | ⟨opcode, .U⟩, o => assembleU opcode o.rd (enc 20 o.imm)
  | ⟨opcode, .J⟩, o => assembleJ opcode o.rd (enc 21 o.imm)

/-- The function fields that stand in a word of a shape. -/
def Layout.ofWord : Shape → Word → Layout
  | .R, w => .R (w.extractLsb 14 12) (w.extractLsb 31 25)
  | .I, w => .I (w.extractLsb 14 12)
  | .shift, w => .shift (w.extractLsb 14 12) (w.extractLsb 31 25)
  | .S, w => .S (w.extractLsb 14 12)
  | .B, w => .B (w.extractLsb 14 12)
  | .U, _ => .U
  | .J, _ => .J

/-- The opcode and the function fields that stand in a word of a shape. -/
def Descriptor.ofWord (shape : Shape) (w : Word) : Descriptor :=
  ⟨w.extractLsb 6 0, Layout.ofWord shape w⟩

@[simp] theorem shape_descriptor_ofWord (shape : Shape) (w : Word) :
    (Descriptor.ofWord shape w).layout.shape = shape := by cases shape <;> rfl

/-- The oracle's tokens are those of the operands it reads. -/
theorem operandTokens_eq (shape : Shape) (w : Word) :
    operandTokens shape w = (OperandValues.ofWord shape w).tokens shape := by cases shape <;> rfl

/-- The opcode stands in the low seven bits of every layout (R77). -/
theorem opcode_assemble (d : Descriptor) (o : OperandValues) :
    (d.assemble o).extractLsb 6 0 = d.opcode := by
  obtain ⟨opcode, layout⟩ := d
  cases layout <;> exact BitVec.extractLsb'_append_eq_right

/-- The mask of the layout clears the operands and keeps the fixed bits. -/
theorem assemble_and_mask (d : Descriptor) (o : OperandValues) :
    d.assemble o &&& d.layout.shape.mask = d.assemble .zero := by
  obtain ⟨opcode, layout⟩ := d
  cases layout
  case R => exact assembleR_and_mask _ _ _ _ _ _
  case I => exact assembleI_and_mask _ _ _ _ _
  case shift => exact assembleR_and_mask _ _ _ _ _ _
  case S => exact assembleS_and_mask _ _ _ _ _
  case B => exact assembleB_and_mask _ _ _ _ _
  case U => exact assembleU_and_mask _ _ _
  case J => exact assembleJ_and_mask _ _ _

/-- Every word is assembled from the fields that stand in it. -/
theorem assemble_ofWord (shape : Shape) (w : Word) :
    (Descriptor.ofWord shape w).assemble (.ofWord shape w) = w := by
  cases shape
  case R => exact assembleR_fields w
  case I => exact assembleI_fields w
  case shift => exact assembleI_shift_fields w
  case S => exact assembleS_fields w
  case B => exact assembleB_fields w
  case U => exact assembleU_fields w
  case J => exact assembleJ_fields w

/-- The immediate that stands in a word is in the range of its layout (R79). -/
theorem inRange_immediateOf (shape : Shape) (w : Word) : shape.InRange (immediateOf shape w) := by
  have signed {N : Nat} (x : BitVec N) {lo hi : Int} (hlo : lo = -2 ^ (N - 1))
      (hhi : hi = 2 ^ (N - 1) - 1) : lo ≤ x.toInt ∧ x.toInt ≤ hi := by
    rw [hlo, hhi, Int.le_sub_one_iff]
    exact ⟨BitVec.le_toInt x, BitVec.toInt_lt⟩
  cases shape
  case R => trivial
  case shift =>
    have := (w.extractLsb 24 20).isLt
    simp only [Shape.InRange, immediateOf]
    omega
  case I | S | B | U | J => exact signed _ rfl rfl

/-- An offset read back is even: bit 0 is not in the word (R86). -/
theorem even_immediateOf {shape : Shape} (h : shape.dropsBitZero = true) (w : Word) :
    immediateOf shape w % 2 = 0 := by
  have even {n : Nat} (x : BitVec (n + 1)) : (x ++ 0#1).toInt % 2 = 0 := by
    simp [BitVec.toInt_append]
  cases shape
  case B | J => exact even _
  case R | I | shift | S | U => cases h

/-- The operands in the word are the operands it was assembled from, down to the tokens. -/
theorem operandTokens_assemble {d : Descriptor} {o : OperandValues}
    (hrange : d.layout.shape.InRange o.imm)
    (heven : d.layout.shape.dropsBitZero = true → o.imm % 2 = 0) :
    operandTokens d.layout.shape (d.assemble o) = o.tokens d.layout.shape := by
  obtain ⟨opcode, layout⟩ := d
  cases layout
  case R funct3 funct7 =>
    obtain ⟨hrd, hrs1, hrs2⟩ := readBack_assembleR opcode funct3 funct7 o.rd o.rs1 o.rs2
    simp only [operandTokens, Layout.shape, Descriptor.assemble, hrd, hrs1, hrs2]; rfl
  case I funct3 =>
    obtain ⟨hrd, hrs1, -⟩ := readBack_assembleI opcode funct3 o.rd o.rs1 (enc 12 o.imm)
    have himm := immediateOf_assembleI opcode funct3 o.rd o.rs1 hrange.1 hrange.2
    simp only [operandTokens, Layout.shape, Descriptor.assemble, hrd, hrs1, himm]; rfl
  case shift funct3 funct7 =>
    obtain ⟨hrd, hrs1, -⟩ := readBack_assembleI opcode funct3 o.rd o.rs1 (funct7 ++ uenc 5 o.imm)
    have himm := immediateOf_assembleI_shift opcode funct3 funct7 o.rd o.rs1 hrange.1 hrange.2
    simp only [operandTokens, Layout.shape, Descriptor.assemble, hrd, hrs1, himm]; rfl
  case S funct3 =>
    obtain ⟨hrs2, hrs1, -⟩ := readBack_assembleS opcode funct3 o.rs1 o.rs2 (enc 12 o.imm)
    have himm := immediateOf_assembleS opcode funct3 o.rs2 o.rs1 hrange.1 hrange.2
    simp only [operandTokens, Layout.shape, Descriptor.assemble, hrs2, hrs1, himm]; rfl
  case B funct3 =>
    obtain ⟨hrs1, hrs2, -⟩ := readBack_assembleB opcode funct3 o.rs1 o.rs2 (enc 13 o.imm)
    have himm := immediateOf_assembleB opcode funct3 o.rs1 o.rs2 hrange.1 hrange.2
    rw [heven rfl, sub_zero] at himm
    simp only [operandTokens, Layout.shape, Descriptor.assemble, hrs1, hrs2, himm]; rfl
  case U =>
    obtain ⟨hrd, -⟩ := readBack_assembleU opcode o.rd (enc 20 o.imm)
    have himm := immediateOf_assembleU opcode o.rd hrange.1 hrange.2
    simp only [operandTokens, Layout.shape, Descriptor.assemble, hrd, himm]; rfl
  case J =>
    obtain ⟨hrd, -⟩ := readBack_assembleJ opcode o.rd (enc 21 o.imm)
    have himm := immediateOf_assembleJ opcode o.rd hrange.1 hrange.2
    rw [heven rfl, sub_zero] at himm
    simp only [operandTokens, Layout.shape, Descriptor.assemble, hrd, himm]; rfl

end Sys2Proof
end

section
/-! SUPPORT. The machine assembles the operands it reads (R120 steps 2 to 5), for every row of ITAB. -/

namespace Sys2Proof

open Machine

/-- A word that a row's branch gives, whatever RTAB holds, is assembled from operands in range. -/
theorem exists_assemble_of_encodeOperands_eq_ok {d : Descriptor} {rtab : List (Text × RegIndex)}
    {ops : List Text} {w : Word} (h : encodeOperands d rtab ops = .ok w) :
    ∃ o : OperandValues, d.layout.shape.InRange o.imm ∧ d.assemble o = w := by
  obtain ⟨opcode, layout⟩ := d
  cases layout
  case R =>
    obtain ⟨-, -, -, -, rd, -, rs1, -, rs2, -, hw⟩ := (encodeR_eq_ok_iff _ _ _ _ _ _).mp h
    exact ⟨⟨rd, rs1, rs2, 0⟩, trivial, hw⟩
  case I =>
    obtain ⟨-, -, -, -, rd, -, rs1, -, v, ⟨-, hv⟩, hw⟩ := (encodeI_eq_ok_iff _ _ _ _ _).mp h
    exact ⟨⟨rd, rs1, 0, v⟩, hv, hw⟩
  case shift =>
    obtain ⟨-, -, -, -, rd, -, rs1, -, v, ⟨-, hv⟩, hw⟩ := (encodeIshift_eq_ok_iff _ _ _ _ _ _).mp h
    exact ⟨⟨rd, rs1, 0, v⟩, hv, hw⟩
  case S =>
    obtain ⟨-, -, -, -, rs2, -, rs1, -, v, ⟨-, hv⟩, hw⟩ := (encodeS_eq_ok_iff _ _ _ _ _).mp h
    exact ⟨⟨0, rs1, rs2, v⟩, hv, hw⟩
  case B =>
    obtain ⟨-, -, -, -, rs1, -, rs2, -, v, ⟨-, hv⟩, hw⟩ := (encodeB_eq_ok_iff _ _ _ _ _).mp h
    exact ⟨⟨0, rs1, rs2, v⟩, hv, hw⟩
  case U =>
    obtain ⟨-, -, -, rd, -, v, ⟨-, hv⟩, hw⟩ := (encodeU_eq_ok_iff _ _ _ _).mp h
    exact ⟨⟨rd, 0, 0, v⟩, hv, hw⟩
  case J =>
    obtain ⟨-, -, -, rd, -, v, ⟨-, hv⟩, hw⟩ := (encodeJ_eq_ok_iff _ _ _ _).mp h
    exact ⟨⟨rd, 0, 0, v⟩, hv, hw⟩

/-- On RTAB as built the canonical tokens of operands in range are read as those operands. -/
theorem encodeOperands_tokens {d : Descriptor} {o : OperandValues}
    (h : d.layout.shape.InRange o.imm) :
    encodeOperands d Tables.rtab (o.tokens d.layout.shape) = .ok (d.assemble o) := by
  obtain ⟨opcode, layout⟩ := d
  have numeral := parseInt_intText o.imm
  cases layout
  case R => exact encodeR_of_registers _ _ _ _ _ _
  case I =>
    exact (readsRegRegImm_I _ _ _).trans (congrArg _ (regRegImm_of_literal _ _ numeral h.1 h.2))
  case shift =>
    exact (readsRegRegImm_shift _ _ _ _).trans (congrArg _ (regRegImm_of_literal _ _ numeral h.1 h.2))
  case S => exact encodeS_of_literal _ _ _ _ numeral h.1 h.2
  case B =>
    exact (readsRegRegImm_B _ _ _).trans (congrArg _ (regRegImm_of_literal _ _ numeral h.1 h.2))
  case U => exact (readsRegImm_U _ _).trans (congrArg _ (regImm_of_literal _ numeral h.1 h.2))
  case J => exact (readsRegImm_J _ _).trans (congrArg _ (regImm_of_literal _ numeral h.1 h.2))

end Sys2Proof
end

section
/-! SUPPORT. The encoder of the opcode table, which shifts and masks, writes the word that the layout
assembles (R71 to R76, R140): both put every bit of an operand at the same place. -/

namespace Sys2Proof

open Machine

/-! The pieces that it shifts into place, bit by bit. -/

/-- A register text in a field shows the bits of its number from the field's lowest bit on. -/
theorem getLsbD_regAt {t : Text} {r : RegIndex} (h : digitsIn t = r.toNat) (pos : Nat) {k : Nat}
    (hk : k < 32) : (regAt pos t).getLsbD k = (decide (pos ≤ k) && r.getLsbD (k - pos)) := by
  simp only [regAt, h, BitVec.getLsbD_shiftLeft, BitVec.getLsbD_ofNat, BitVec.testBit_toNat]
  grind

theorem getLsbD_piece (x : Word) (lo width pos : Nat) {k : Nat} (hk : k < 32) :
    (piece x lo width pos).getLsbD k =
      (decide (pos ≤ k) && decide (k < pos + width) && x.getLsbD (lo + (k - pos))) := by
  simp only [piece, BitVec.getLsbD_shiftLeft, BitVec.getLsbD_and, BitVec.getLsbD_ushiftRight,
    BitVec.getLsbD_ofNat, Nat.testBit_two_pow_sub_one]
  grind

/-! Each layout, on canonical tokens. -/

variable (opcode : BitVec 7) (funct3 : BitVec 3) (funct7 : BitVec 7) (rd rs1 rs2 : RegIndex) (v : Int)

theorem writeR_tokens :
    writeR (assembleR opcode funct3 funct7 0#5 0#5 0#5) [regToken rd, regToken rs1, regName rs2] =
      assembleR opcode funct3 funct7 rd rs1 rs2 := by
  refine BitVec.eq_of_getLsbD_eq fun k hk => ?_
  simp only [writeR, assembleR, regToken, BitVec.getLsbD_or, BitVec.getLsbD_append,
    getLsbD_regAt (digitsIn_regSep _) _ hk, getLsbD_regAt (digitsIn_regName _) _ hk]
  grind

theorem writeI_tokens :
    writeI (assembleI opcode funct3 0#5 0#5 0#12) [regToken rd, regToken rs1, intText v] =
      assembleI opcode funct3 rd rs1 (enc 12 v) := by
  have low (j : Nat) (hj : j < 12) := getLsbD_imm32 v (by decide) hj
  refine BitVec.eq_of_getLsbD_eq fun k hk => ?_
  simp only [writeI, assembleI, regToken, signedIn_intText, BitVec.getLsbD_or, BitVec.getLsbD_append,
    getLsbD_regAt (digitsIn_regSep _) _ hk, getLsbD_piece _ _ _ _ hk]
  grind

theorem writeShift_tokens (hv : 0 ≤ v) :
    writeShift (assembleR opcode funct3 funct7 0#5 0#5 0#5) [regToken rd, regToken rs1, intText v] =
      assembleR opcode funct3 funct7 rd rs1 (uenc 5 v) := by
  have low (j : Nat) (hj : j < 5) := getLsbD_imm32 v (by decide) hj
  rw [uenc_eq_enc 5 hv]
  refine BitVec.eq_of_getLsbD_eq fun k hk => ?_
  simp only [writeShift, assembleR, regToken, signedIn_intText, BitVec.getLsbD_or,
    BitVec.getLsbD_append, getLsbD_regAt (digitsIn_regSep _) _ hk, getLsbD_piece _ _ _ _ hk]
  grind

theorem writeS_tokens :
    writeS (assembleS opcode funct3 0#5 0#5 0#12)
        [regToken rs2, storeToken (intText v) (regName rs1)] =
      assembleS opcode funct3 rs2 rs1 (enc 12 v) := by
  have low (j : Nat) (hj : j < 12) := getLsbD_imm32 v (by decide) hj
  refine BitVec.eq_of_getLsbD_eq fun k hk => ?_
  simp only [writeS, assembleS, regToken, takeWhile_storeToken (lparen_notMem_intText v),
    dropWhile_storeToken (lparen_notMem_intText v), signedIn_intText, BitVec.getLsbD_or,
    BitVec.getLsbD_append, BitVec.getLsbD_extractLsb, getLsbD_regAt (digitsIn_regSep _) _ hk,
    getLsbD_regAt (digitsIn_regParen _) _ hk, getLsbD_piece _ _ _ _ hk]
  grind

theorem writeB_tokens :
    writeB (assembleB opcode funct3 0#5 0#5 0#13) [regToken rs1, regToken rs2, intText v] =
      assembleB opcode funct3 rs1 rs2 (enc 13 v) := by
  have low (j : Nat) (hj : j < 13) := getLsbD_imm32 v (by decide) hj
  refine BitVec.eq_of_getLsbD_eq fun k hk => ?_
  simp only [writeB, assembleB, regToken, signedIn_intText, BitVec.getLsbD_or, BitVec.getLsbD_append,
    BitVec.getLsbD_extractLsb, getLsbD_regAt (digitsIn_regSep _) _ hk, getLsbD_piece _ _ _ _ hk]
  grind

theorem writeJ_tokens :
    writeJ (assembleJ opcode 0#5 0#21) [regToken rd, intText v] =
      assembleJ opcode rd (enc 21 v) := by
  have low (j : Nat) (hj : j < 21) := getLsbD_imm32 v (by decide) hj
  refine BitVec.eq_of_getLsbD_eq fun k hk => ?_
  simp only [writeJ, assembleJ, regToken, signedIn_intText, BitVec.getLsbD_or, BitVec.getLsbD_append,
    BitVec.getLsbD_extractLsb, getLsbD_regAt (digitsIn_regSep _) _ hk, getLsbD_piece _ _ _ _ hk]
  grind

theorem writeU_tokens :
    writeU (assembleU opcode 0#5 0#20) [regToken rd, intText v] =
      assembleU opcode rd (enc 20 v) := by
  have low (j : Nat) (hj : j < 20) := getLsbD_imm32 v (by decide) hj
  refine BitVec.eq_of_getLsbD_eq fun k hk => ?_
  simp only [writeU, assembleU, regToken, signedIn_intText, BitVec.getLsbD_or, BitVec.getLsbD_append,
    getLsbD_regAt (digitsIn_regSep _) _ hk, getLsbD_piece _ _ _ _ hk]
  grind

/-- The operands written over the fixed bits of a word, by the layout of a row of the opcode table. -/
def Shape.write : Shape → Word → List Text → Word
  | .R => writeR
  | .I => writeI
  | .shift => writeShift
  | .S => writeS
  | .B => writeB
  | .U => writeU
  | .J => writeJ

/-- Written over the fixed bits, the canonical tokens give the assembled word. -/
theorem write_tokens {d : Descriptor} {o : OperandValues} (h : d.layout.shape.InRange o.imm) :
    d.layout.shape.write (d.assemble .zero) (o.tokens d.layout.shape) = d.assemble o := by
  obtain ⟨opcode, layout⟩ := d
  cases layout
  case R => exact writeR_tokens _ _ _ _ _ _
  case I => exact writeI_tokens _ _ _ _ _
  case shift => exact writeShift_tokens _ _ _ _ _ _ h.1
  case S => exact writeS_tokens _ _ _ _ _
  case B => exact writeB_tokens _ _ _ _ _
  case U => exact writeU_tokens _ _ _
  case J => exact writeJ_tokens _ _ _

/-- Descriptors of one layout with the same fixed bits assemble the same words. -/
theorem assemble_congr {d d' : Descriptor} {o : OperandValues}
    (hshape : d.layout.shape = d'.layout.shape) (hfixed : d.assemble .zero = d'.assemble .zero)
    (h : d.layout.shape.InRange o.imm) : d.assemble o = d'.assemble o := by
  rw [← write_tokens h, hfixed, hshape, write_tokens (hshape ▸ h)]

/-- A word with the fixed bits of a descriptor is assembled from it and the operands that stand in the
word. -/
theorem assemble_ofWord_of_fixedBits {d : Descriptor} {w : Word}
    (h : w &&& d.layout.shape.mask = d.assemble .zero) :
    d.assemble (.ofWord d.layout.shape w) = w := by
  have hword := assemble_ofWord d.layout.shape w
  have hshape := shape_descriptor_ofWord d.layout.shape w
  have hfixed : d.assemble .zero = (Descriptor.ofWord d.layout.shape w).assemble .zero := by
    rw [← h, ← assemble_and_mask _ (.ofWord d.layout.shape w), hword, hshape]
  rw [assemble_congr hshape.symm hfixed (inRange_immediateOf _ w), hword]

end Sys2Proof
end

section
/-! SUPPORT. The rows of the opcode table beside the rows of ITAB (R22, R87): each of the 37 selects words
by the fixed bits of its descriptor and reads and writes the operands of its layout. -/

namespace Sys2Proof

open Machine

/-- The operand tokens are canonical, and the immediate is in the range of the layout. -/
def Shape.wellFormed : Shape → List Text → Bool
  | .R => wellFormedR
  | .I => wellFormedI
  | .shift => wellFormedShift
  | .S => wellFormedS
  | .B => wellFormedB
  | .U => wellFormedU
  | .J => wellFormedJ

/-- The offset is even where the layout leaves bit 0 out. -/
def Shape.evenOffset : Shape → List Text → Bool
  | .B | .J => lastIsEven
  | .R | .I | .shift | .S | .U => fun _ => true

/-- Well-formed tokens are the canonical tokens of operands in range. -/
theorem wellFormed_iff (shape : Shape) (ops : List Text) :
    shape.wellFormed ops = true ↔
      ∃ o : OperandValues, shape.InRange o.imm ∧ ops = o.tokens shape := by
  have three {lo hi : Int} : wellFormedRegRegImm lo hi ops = true →
      ∃ r₀ r₁ v, (lo ≤ v ∧ v ≤ hi) ∧ ops = [regToken r₀, regToken r₁, intText v] := fun h => by
    obtain ⟨r₀, r₁, v, hops, hv⟩ := (wellFormedRegRegImm_iff lo hi ops).mp h
    exact ⟨r₀, r₁, v, hv, hops⟩
  have two {lo hi : Int} : wellFormedRegImm lo hi ops = true →
      ∃ r v, (lo ≤ v ∧ v ≤ hi) ∧ ops = [regToken r, intText v] := fun h => by
    obtain ⟨r, v, hops, hv⟩ := (wellFormedRegImm_iff lo hi ops).mp h
    exact ⟨r, v, hv, hops⟩
  constructor
  · intro h
    cases shape
    case R =>
      obtain ⟨rd, rs1, rs2, hops⟩ := (wellFormedR_iff ops).mp h
      exact ⟨⟨rd, rs1, rs2, 0⟩, trivial, hops⟩
    case I | shift => obtain ⟨rd, rs1, v, hv⟩ := three h; exact ⟨⟨rd, rs1, 0, v⟩, hv⟩
    case B => obtain ⟨rs1, rs2, v, hv⟩ := three h; exact ⟨⟨0, rs1, rs2, v⟩, hv⟩
    case S =>
      obtain ⟨rs2, rs1, v, hops, hv⟩ := (wellFormedS_iff ops).mp h
      exact ⟨⟨0, rs1, rs2, v⟩, hv, hops⟩
    case U | J => obtain ⟨rd, v, hv⟩ := two h; exact ⟨⟨rd, 0, 0, v⟩, hv⟩
  · rintro ⟨o, hv, hops⟩
    cases shape
    case R => exact (wellFormedR_iff ops).mpr ⟨_, _, _, hops⟩
    case I | shift | B => exact (wellFormedRegRegImm_iff _ _ ops).mpr ⟨_, _, _, hops, hv⟩
    case S => exact (wellFormedS_iff ops).mpr ⟨_, _, _, hops, hv⟩
    case U | J => exact (wellFormedRegImm_iff _ _ ops).mpr ⟨_, _, hops, hv⟩

theorem evenOffset_tokens_iff (shape : Shape) (o : OperandValues) :
    shape.evenOffset (o.tokens shape) = true ↔ (shape.dropsBitZero = true → o.imm % 2 = 0) := by
  have last {ops : List Text} (h : ops.getLast? = some (intText o.imm)) :
      lastIsEven ops = true ↔ (true = true → o.imm % 2 = 0) := by
    simp [lastIsEven_iff ops _ _ h (parseInt_intText o.imm)]
  cases shape
  case B => exact last (ops := o.tokens .B) rfl
  case J => exact last (ops := o.tokens .J) rfl
  case R | I | shift | S | U => simp [Shape.evenOffset, Shape.dropsBitZero]

/-- The row `r` of the opcode table and the row `d` of ITAB are rows of one mnemonic. -/
structure SameRow (r : WordRow) (d : Descriptor) : Prop where
  hasRow : HasRow r.build d
  key : ∀ ops, (r.build ops).key = (r.build []).key
  shape : r.shape = d.layout.shape
  mask : r.mask = r.shape.mask
  value : r.value = d.assemble .zero
  wellFormed : ∀ ops, (r.build ops).wellFormed = r.shape.wellFormed ops
  evenOffset : ∀ ops, (r.build ops).evenOffset = r.shape.evenOffset ops
  encode : ∀ ops, encode (r.build ops) = r.shape.write r.value ops

/-- Every row of the opcode table has its row in ITAB. -/
theorem exists_sameRow {r : WordRow} (h : r ∈ wordRows) : ∃ d, SameRow r d := by
  fin_cases h
  all_goals
    exact ⟨_, fun _ => ⟨rfl, rfl⟩, fun _ => rfl, rfl, rfl, rfl, fun _ => rfl, fun _ => rfl,
      fun _ => rfl⟩

/-- The rows make the 37 instructions, in the order of the mnemonics. -/
theorem wordRows_build : wordRows.map WordRow.build = Instr.named.map Prod.snd := rfl

/-- Every instruction has its row in the opcode table. -/
theorem exists_row_build (i : Instr) : ∃ r ∈ wordRows, r.build i.ops = i := by
  obtain ⟨mk, hmk, hi⟩ := Option.map_eq_some_iff.mp (Laws.KeyNames.statement_holds i)
  have hmem : mk ∈ wordRows.map WordRow.build :=
    wordRows_build ▸ List.mem_map_of_mem (f := Prod.snd) (lookup_mem hmk)
  obtain ⟨r, hr, rfl⟩ := List.mem_map.mp hmem
  exact ⟨r, hr, hi⟩

end Sys2Proof
end

section
/-! SUPPORT. The word decoder reads the one row that selects the word (R87, R88). -/

namespace Sys2Proof

open Machine

/-- Any two rows ask for different bits at a place that both fix (R88). -/
theorem wordRows_pairwise :
    wordRows.Pairwise fun r r' => r.value &&& r'.mask ≠ r'.value &&& r.mask := by decide

theorem selects_iff (r : WordRow) (w : Word) : r.selects w = true ↔ w &&& r.mask = r.value :=
  beq_iff_eq

/-- No two rows, one before the other, both select a word (R88). -/
theorem wordRows_pairwise_not_selects (w : Word) :
    wordRows.Pairwise fun r r' => ¬ (r.selects w = true ∧ r'.selects w = true) := by
  refine wordRows_pairwise.imp fun {r r'} hne ⟨h, h'⟩ => hne ?_
  rw [selects_iff] at h h'
  rw [← h, ← h', BitVec.and_assoc, BitVec.and_assoc, BitVec.and_comm r.mask]

/-- The row that selects a word is the only one (R88). -/
theorem eq_of_selects {r r' : WordRow} {w : Word} (hr : r ∈ wordRows) (hr' : r' ∈ wordRows)
    (h : r.selects w = true) (h' : r'.selects w = true) : r = r' := by
  have symm : Std.Symm fun r r' : WordRow => ¬ (r.selects w = true ∧ r'.selects w = true) :=
    ⟨fun _ _ hnot both => hnot both.symm⟩
  by_contra hne
  exact (wordRows_pairwise_not_selects w).forall hr hr' hne ⟨h, h'⟩

/-- What the decoder reads in a word: the row that selects it, with the operands that stand in it. -/
theorem decodeWord_eq_ok_iff (w : Word) (i : Instr) :
    decodeWord w = .ok i ↔
      ∃ r ∈ wordRows, r.selects w = true ∧ r.build (operandTokens r.shape w) = i := by
  have selects_of_find? {r : WordRow} (hr : wordRows.find? (fun r => r.selects w) = some r) :
      r.selects w = true := List.find?_some (p := fun r : WordRow => r.selects w) hr
  unfold decodeWord
  constructor
  · intro h
    split at h
    · next r hr =>
      cases h
      exact ⟨r, List.mem_of_find?_eq_some hr, selects_of_find? hr, rfl⟩
    · split at h
      · cases h
      · split at h <;> cases h
  · rintro ⟨r, hr, hsel, rfl⟩
    split
    · next r' hr' =>
      rw [eq_of_selects hr (List.mem_of_find?_eq_some hr') hsel (selects_of_find? hr')]
    · next hnone => exact absurd hsel (List.find?_eq_none.mp hnone r hr)

end Sys2Proof
end

section
/-! SUPPORT. A row of the opcode table and its row of ITAB agree on their words: the words the row selects
are those that the descriptor assembles, and the instruction of a word is well formed (R86 to R90). -/

namespace Sys2Proof

open Machine

variable {r : WordRow} {d : Descriptor}

/-- The row selects every word that its descriptor assembles (R89). -/
theorem SameRow.selects_assemble (h : SameRow r d) (o : OperandValues) :
    r.selects (d.assemble o) = true := by
  rw [selects_iff, h.mask, h.shape, h.value, assemble_and_mask]

/-- A word that the row selects is assembled from its descriptor and the operands that stand in it. -/
theorem SameRow.assemble_ofWord_of_selects (h : SameRow r d) {w : Word} (hw : r.selects w = true) :
    d.assemble (.ofWord r.shape w) = w := by
  rw [selects_iff, h.mask, h.value] at hw
  rw [h.shape] at hw ⊢
  exact assemble_ofWord_of_fixedBits hw

/-- The opcode table's encoder and the machine's assembly write the same word. -/
theorem SameRow.encode_tokens (h : SameRow r d) {o : OperandValues} (ho : r.shape.InRange o.imm) :
    Sys2Proof.encode (r.build (o.tokens r.shape)) = d.assemble o := by
  rw [h.encode, h.value]
  rw [h.shape] at ho ⊢
  exact write_tokens ho

/-- Every instruction is of a row of the opcode table and of a row of ITAB. -/
theorem exists_sameRow_build (i : Instr) : ∃ r ∈ wordRows, ∃ d, SameRow r d ∧ r.build i.ops = i := by
  obtain ⟨r, hr, hi⟩ := exists_row_build i
  obtain ⟨d, hd⟩ := exists_sameRow hr
  exact ⟨r, hr, d, hd, hi⟩

/-- A well-formed instruction is of a row, with the canonical tokens of operands in range. -/
theorem exists_operandValues_of_wellFormed {i : Instr} (h : i.wellFormed = true) :
    ∃ r ∈ wordRows, ∃ d, SameRow r d ∧
      ∃ o : OperandValues, r.shape.InRange o.imm ∧ i = r.build (o.tokens r.shape) := by
  obtain ⟨r, hr, d, hd, hi⟩ := exists_sameRow_build i
  rw [← hi, hd.wellFormed, wellFormed_iff] at h
  obtain ⟨o, ho, hops⟩ := h
  exact ⟨r, hr, d, hd, o, ho, by rw [← hops, hi]⟩

/-- The instruction that the row makes of a word it selects is well formed, with an even offset, and its
word is that very word (R86). -/
theorem SameRow.build_operandTokens (h : SameRow r d) {w : Word} (hw : r.selects w = true) :
    (r.build (operandTokens r.shape w)).wellFormed = true ∧
      (r.build (operandTokens r.shape w)).evenOffset = true ∧
      Sys2Proof.encode (r.build (operandTokens r.shape w)) = w := by
  have hrange := inRange_immediateOf r.shape w
  rw [operandTokens_eq, h.wellFormed, h.evenOffset, wellFormed_iff, evenOffset_tokens_iff,
    h.encode_tokens hrange]
  exact ⟨⟨_, hrange, rfl⟩, fun heven => even_immediateOf heven w, h.assemble_ofWord_of_selects hw⟩

end Sys2Proof
end

section
/-! SUPPORT. The statements that decoder and encoder are inverse (spec/30_encoding.md sections 1 to 3). -/

namespace Sys2Proof.Machine

/-- Settles O30: the word of a row is selected by that row alone, and the operands that stand in it are
those it was assembled from. -/
theorem decodeOfEncodeIsIdentity : Obligations.DecodeOfEncodeIsIdentity := by
  intro i hwf heven
  obtain ⟨r, hr, d, hd, o, ho, rfl⟩ := exists_operandValues_of_wellFormed hwf
  rw [hd.evenOffset, evenOffset_tokens_iff] at heven
  rw [hd.encode_tokens ho, decodeWord_eq_ok_iff]
  refine ⟨r, hr, hd.selects_assemble o, congrArg r.build ?_⟩
  rw [hd.shape] at ho heven ⊢
  exact operandTokens_assemble ho heven

/-- Settles O31: a word that decodes is selected by a row, and the row's encoder writes that word from
the operands that stand in it. -/
theorem encodeOfDecodeIsIdentity : Obligations.EncodeOfDecodeIsIdentity := by
  intro w i h
  obtain ⟨r, hr, hsel, rfl⟩ := (decodeWord_eq_ok_iff w i).mp h
  obtain ⟨d, hd⟩ := exists_sameRow hr
  exact hd.build_operandTokens hsel

/-- Settles O32: two rows ask for different bits at a place that both fix, so of the rows that select a
word no second can follow the first. -/
theorem selectorsArePairwiseDisjoint : Obligations.SelectorsArePairwiseDisjoint := by
  intro w
  have pairwise := (wordRows_pairwise_not_selects w).filter fun r => r.selects w
  have selected {r : WordRow} (h : r ∈ wordRows.filter fun r => r.selects w) : r.selects w = true :=
    (List.mem_filter.mp h).2
  match hl : wordRows.filter fun r => r.selects w with
  | [] | [_] => simp [hl]
  | r :: r' :: rs =>
    rw [hl] at pairwise selected
    exact absurd ⟨selected (by simp), selected (by simp)⟩
      ((List.pairwise_cons.mp pairwise).1 r' (by simp))

/-- Settles O37, layout by layout: the fields that the layout keeps are read back, and of an offset
without bit 0 twice its half is left. -/
theorem immediatesReadBack : Obligations.ImmediatesReadBack := fun op f3 f7 r₁ r₂ _ =>
  ⟨immediateOf_assembleI op f3 r₁ r₂, immediateOf_assembleI_shift op f3 f7 r₁ r₂,
    immediateOf_assembleS op f3 r₁ r₂, immediateOf_assembleB op f3 r₁ r₂,
    immediateOf_assembleJ op r₁, immediateOf_assembleU op r₁⟩

end Sys2Proof.Machine
end

section
/-! SUPPORT. The words that `encode(line)` gives: for any tables those that a descriptor assembles, on
tables as built those that the mnemonic's row selects, and for a canonical line the word of the opcode
table's encoder (R89, R120). -/

namespace Sys2Proof.Machine

/-- A line that encodes to a word begins with a key of ITAB, whose branch gives the word. -/
theorem exists_lookup_of_encodeLine_eq_ok {itab : List (Text × Descriptor)}
    {rtab : List (Text × RegIndex)} {line : Text} {w : Word} (h : encodeLine itab rtab line = .ok w) :
    ∃ m ops d, splitWs line = m :: ops ∧ itab.lookup m = some d ∧ encodeOperands d rtab ops = .ok w := by
  unfold encodeLine at h
  split at h
  · cases h
  · next m ops hs =>
    split at h
    · cases h
    · next d hd => exact ⟨m, ops, d, hs, hd, (resultOf_eq_ok_iff _ _).mp h⟩

/-- On tables as built a line that encodes to a word begins with the mnemonic of the row that selects
the word. -/
theorem exists_row_of_encodeLine_eq_ok {line : Text} {w : Word}
    (h : encodeLine Tables.itab Tables.rtab line = .ok w) :
    ∃ r ∈ wordRows, r.selects w = true ∧ ∃ ops, splitWs line = (r.build ops).key :: ops := by
  obtain ⟨m, ops, d, hs, hd, hw⟩ := exists_lookup_of_encodeLine_eq_ok h
  cases hdec : decodeLine line with
  | error e => simp [encodeLine_of_decodeLine_error hdec] at h
  | ok i =>
    obtain ⟨r, hr, d', hrow, hi⟩ := exists_sameRow_build i
    obtain ⟨hkey, hops⟩ := List.cons.inj (hs.symm.trans (splitWs_of_decodeLine_ok hdec))
    obtain ⟨hd', -⟩ := hrow.hasRow i.ops
    rw [hi, ← hkey, hd] at hd'
    obtain rfl : d = d' := Option.some.inj hd'
    obtain ⟨o, -, rfl⟩ := exists_assemble_of_encodeOperands_eq_ok hw
    exact ⟨r, hr, hrow.selects_assemble o, i.ops, by rw [hi, ← hkey, ← hops, hs]⟩

/-- The canonical line of a well-formed instruction is read back as the instruction. -/
theorem decodeLine_line {i : Instr} (h : i.wellFormed = true) : decodeLine i.line = .ok i :=
  Laws.LineReads.statement_holds i (isToken_of_wellFormed h)

/-- On tables as built the canonical line of a well-formed instruction encodes to its word. -/
theorem encodeLine_line {i : Instr} (h : i.wellFormed = true) :
    encodeLine Tables.itab Tables.rtab i.line = .ok (encode i) := by
  have hs := splitWs_of_decodeLine_ok (decodeLine_line h)
  obtain ⟨r, -, d, hd, o, ho, rfl⟩ := exists_operandValues_of_wellFormed h
  obtain ⟨hlookup, hops⟩ := hd.hasRow (o.tokens r.shape)
  rw [hd.encode_tokens ho]
  simp only [encodeLine, hs, hlookup, hops, resultOf_eq_ok_iff]
  rw [hd.shape] at ho ⊢
  exact encodeOperands_tokens ho

theorem isProducible_iff (w : Word) :
    isProducible w = true ↔ ∃ r ∈ wordRows, r.selects w = true := List.any_eq_true

/-- On tables as built a line encodes to words of the producible set only (R89, R90). -/
theorem isProducible_of_encodeLine_eq_ok {line : Text} {w : Word}
    (h : encodeLine Tables.itab Tables.rtab line = .ok w) : isProducible w = true := by
  obtain ⟨r, hr, hsel, -⟩ := exists_row_of_encodeLine_eq_ok h
  exact (isProducible_iff w).mpr ⟨r, hr, hsel⟩

/-- Every word of the producible set is the word of a canonical line (R89). -/
theorem exists_line_of_isProducible {w : Word} (h : isProducible w = true) :
    ∃ line, encodeLine Tables.itab Tables.rtab line = .ok w := by
  obtain ⟨r, hr, hsel⟩ := (isProducible_iff w).mp h
  obtain ⟨d, hd⟩ := exists_sameRow hr
  obtain ⟨hwf, -, henc⟩ := hd.build_operandTokens hsel
  exact ⟨_, by rw [encodeLine_line hwf, henc]⟩

/-- On tables as built a canonical line is answered with its word. -/
theorem step_line {i : Instr} {s : State} {rest : List Text} (hs : TablesBuilt s)
    (hwf : i.wellFormed = true) (hp : s.pending = i.line :: rest) :
    step s = .next (emit (encode i) { s with pending := rest }) := by
  rw [step_of_tablesBuilt hs hp, hs.itab, hs.rtab, encodeLine_line hwf]
  rfl

end Sys2Proof.Machine
end

section
/-! SUPPORT. The statements about the words of lines (spec/30_encoding.md sections 3 and 4;
spec/95_test_vectors.md section 11). -/

namespace Sys2Proof.Machine

/-- Settles O33: a canonical line is read back as its instruction, whose row assembles the word that the
opcode table's encoder writes. -/
theorem canonicalLineGivesItsWord : Obligations.CanonicalLineGivesItsWord :=
  fun _ _ _ hs hwf hp => step_line hs hwf hp

/-- Settles O34: the row of the line's mnemonic selects the word of a line, and a word that a row selects
is the word of the canonical line that the decoder reads in it. -/
theorem producedWordsAreExactlyTheTableWords : Obligations.ProducedWordsAreExactlyTheTableWords :=
  fun _ => ⟨fun ⟨_, h⟩ => isProducible_of_encodeLine_eq_ok h, exists_line_of_isProducible⟩

/-- Every opcode of ITAB ends in 0b11 (R22). -/
theorem itab_opcode_low_bits : ∀ p ∈ Tables.itab, p.2.opcode.extractLsb 1 0 = 0b11#2 := by decide

/-- Settles O35: the word is assembled with the opcode of the descriptor found, whatever the tables, and
each of the 37 opcodes as built ends in 0b11. -/
theorem lowBitsAreTheOpcode : Obligations.LowBitsAreTheOpcode := by
  intro itab rtab line w h
  obtain ⟨m, ops, d, hs, hd, hw⟩ := exists_lookup_of_encodeLine_eq_ok h
  obtain ⟨o, -, rfl⟩ := exists_assemble_of_encodeOperands_eq_ok hw
  have hopcode := opcode_assemble d o
  refine ⟨m, ops, d, hs, hd, hopcode, ?_⟩
  rintro rfl
  rw [← itab_opcode_low_bits _ (lookup_mem hd), ← hopcode]
  exact (BitVec.extractLsb'_extractLsb'_of_le (by decide)).symm

/-- Settles O36: the row of the line's mnemonic selects the word, and the decoder reads that row. -/
theorem mnemonicReadsBack : Obligations.MnemonicReadsBack := by
  intro line w h
  obtain ⟨r, hr, hsel, ops, hs⟩ := exists_row_of_encodeLine_eq_ok h
  obtain ⟨d, hd⟩ := exists_sameRow hr
  refine ⟨_, ops, _, hs, (decodeWord_eq_ok_iff w _).mpr ⟨r, hr, hsel, rfl⟩, ?_⟩
  rw [hd.key, hd.key ops]

/-- Settles O13: idle a step changes nothing, and with a line waiting it keeps the tables and answers
with the encoding of the line, which is an error or a word of the producible set. -/
theorem stepKeepsInvariant : Obligations.StepKeepsInvariant := by
  intro s t ⟨hs, hproduced⟩ h
  refine ⟨hs.of_step h, fun w hw => ?_⟩
  cases hp : s.pending with
  | nil =>
    obtain rfl : s = t := by simpa [step_idle hp] using h
    exact hproduced w hw
  | cons line rest =>
    rw [step_of_tablesBuilt hs hp, hs.itab, hs.rtab] at h
    cases h
    exact isProducible_of_encodeLine_eq_ok (Option.some.inj hw)

/-- The instruction of an opcode-table word is what the word decoder reads in it. -/
theorem decodeWord_of_decodeTableWord {n : Nat} {i : Instr} (h : decodeTableWord 32 n = some i) :
    decodeWord (BitVec.ofNat 32 n) = .ok i := by
  have hmod : BitVec.ofNat 32 (n % 2 ^ 32) = BitVec.ofNat 32 n :=
    BitVec.eq_of_toNat_eq (by simp)
  rw [decodeTableWord, hmod] at h
  split at h
  · split at h
    · next hi => cases h; exact hi
    · cases h
  · cases h

/-- Settles O39: the line presented is the canonical line of the instruction that the word decoder reads,
which is well formed and whose word is the word read. -/
theorem tableWordRunsItsInstruction : Obligations.TableWordRunsItsInstruction := by
  intro s n i h
  obtain ⟨hwf, -, henc⟩ := encodeOfDecodeIsIdentity _ _ (decodeWord_of_decodeTableWord h)
  have hp : (s.withFetchWord 32 n).pending = i.line :: s.pending := by
    simp only [withFetchWord_pending, tableWordLine, h]
  constructor
  · simp only [step, hp, decodeLine_line hwf]
    rfl
  · intro hs
    rw [← henc]
    exact step_line ⟨hs.itab, hs.rtab⟩ hwf hp

end Sys2Proof.Machine
end

section
/-! SUPPORT. What a step reads of a line: its tokens and nothing else (R120, R121). -/

namespace Sys2Proof.Machine

/-- Lines with the same tokens are answered alike. -/
theorem step_congr_splitWs {line line' : Text} (h : splitWs line = splitWs line') (s : State)
    (rest : List Text) :
    step { s with pending := line :: rest } = step { s with pending := line' :: rest } := by
  simp only [step, decodeLine, h]

/-- Whitespace after the last token makes no token (R121). -/
theorem splitWs_append_trailing (a w : Text) (hw : ∀ c ∈ w, isWs c = true) :
    splitWs (a ++ w) = splitWs a := by
  cases w with
  | nil => rw [List.append_nil]
  | cons c cs => simpa using splitWs_append_ws a (c :: cs) [] (by simp) hw

end Sys2Proof.Machine
end

section
/-! SUPPORT. The branch of format R reads no immediate, so it never finds one out of range (R257). -/

namespace Sys2Proof.Machine

theorem encodeR_ne_immediateOutOfRange (opcode : BitVec 7) (funct3 : BitVec 3) (funct7 : BitVec 7)
    (rtab : List (Text × RegIndex)) (ops : List Text) :
    encodeR opcode funct3 funct7 rtab ops ≠ .error .immediateOutOfRange := by
  have three : threeOperands ops ≠ .error .immediateOutOfRange := fun h => by
    cases threeOperands_eq_error _ _ h
  simp only [encodeR, bind_eq_error_iff, reg_eq_error_iff, pure_ne_error, three, reduceCtorEq,
    and_false, exists_false, or_false, ne_eq, not_false_eq_true]

/-- What an instruction of a row of ITAB answers is the result of the row's branch. -/
theorem result_of_exec {i : Instr} {s t : State} {d : Descriptor}
    (hd : s.itab.lookup i.key = some d) (h : exec i s = .next t) :
    t.result = some (resultOf (encodeOperands d s.rtab i.ops)) := by
  rw [exec_eq_execMnemonic, execMnemonic_of_lookup _ hd] at h
  cases h
  rfl

end Sys2Proof.Machine
end

section
/-! SUPPORT. Bit 0 of a branch or jump offset does not reach the word, so an odd offset is assembled as
the even one below it (R74, R75, D10). -/

namespace Sys2Proof.Machine

/-- An odd number and the even one below it have the same bits from bit 1 on. -/
theorem getLsbD_enc_sub_one {N k : Nat} {v : Int} (hv : v % 2 = 1) (hk : 0 < k) :
    (enc N (v - 1)).getLsbD k = (enc N v).getLsbD k := by
  by_cases hN : k < N
  · obtain ⟨j, rfl⟩ : ∃ j, k = j + 1 := ⟨k - 1, by omega⟩
    have half : (v - 1) / 2 = v / 2 := by omega
    rw [getLsbD_enc _ hN, getLsbD_enc _ hN, pow_succ', ← Int.ediv_ediv_of_nonneg (by decide), half,
      Int.ediv_ediv_of_nonneg (by decide)]
  · rw [BitVec.getLsbD_of_ge _ _ (by omega), BitVec.getLsbD_of_ge _ _ (by omega)]

theorem assembleB_enc_sub_one {v : Int} (hv : v % 2 = 1) (opcode : BitVec 7) (funct3 : BitVec 3)
    (rs1 rs2 : RegIndex) :
    assembleB opcode funct3 rs1 rs2 (enc 13 (v - 1)) = assembleB opcode funct3 rs1 rs2 (enc 13 v) := by
  have upper {k : Nat} (hk : 0 < k) := getLsbD_enc_sub_one (N := 13) hv hk
  refine BitVec.eq_of_getLsbD_eq fun k hk => ?_
  simp only [assembleB, BitVec.getLsbD_append, BitVec.getLsbD_extractLsb]
  grind

theorem assembleJ_enc_sub_one {v : Int} (hv : v % 2 = 1) (opcode : BitVec 7) (rd : RegIndex) :
    assembleJ opcode rd (enc 21 (v - 1)) = assembleJ opcode rd (enc 21 v) := by
  have upper {k : Nat} (hk : 0 < k) := getLsbD_enc_sub_one (N := 21) hv hk
  refine BitVec.eq_of_getLsbD_eq fun k hk => ?_
  simp only [assembleJ, BitVec.getLsbD_append, BitVec.getLsbD_extractLsb]
  grind

/-- Settles O28: both offsets are in range, because the lower bound is even, and they are assembled to
one word, because the layout leaves bit 0 out. -/
theorem oddOffsetEncodesAsEven : Obligations.OddOffsetEncodesAsEven := by
  intro s hs v t t' ht ht' hodd
  refine ⟨fun hlo hhi mk hmk rs1 rs2 => ?_, fun hlo hhi rd => ?_⟩
  · obtain ⟨funct3, hrow⟩ : ∃ funct3, HasRow mk ⟨0b1100011#7, .B funct3⟩ := by
      fin_cases hmk <;> exact ⟨_, fun _ => ⟨rfl, rfl⟩⟩
    have hreads := readsRegRegImm_B 0b1100011#7 funct3
    have hexec := exec_of_readsRegRegImm_of_literal hrow hs hreads rs1 rs2 ht hlo hhi
    refine ⟨?_, _, hexec⟩
    rw [hexec, exec_of_readsRegRegImm_of_literal hrow hs hreads rs1 rs2 ht' (by omega) (by omega),
      assembleB_enc_sub_one hodd]
  · have hrow : HasRow .jal ⟨0b1101111#7, .J⟩ := fun _ => ⟨rfl, rfl⟩
    have hreads := readsRegImm_J 0b1101111#7
    have hexec := exec_of_readsRegImm_of_literal hrow hs hreads rd ht hlo hhi
    refine ⟨?_, _, hexec⟩
    rw [hexec, exec_of_readsRegImm_of_literal hrow hs hreads rd ht' (by omega) (by omega),
      assembleJ_enc_sub_one hodd]

end Sys2Proof.Machine
end

section
/-! SUPPORT. The statements about one step, tokens and error kinds (spec/10_state.md,
spec/40_encode_pipeline.md, spec/60_exceptions.md, spec/70_reset_and_hazards.md). -/

namespace Sys2Proof.Machine

/-- Settles O9, by the step on tables as built. -/
theorem stepComputesEncode : Obligations.StepComputesEncode :=
  fun _ _ _ hs hp => step_of_tablesBuilt hs hp

/-- Settles O10: an idle step goes on, and a waiting line is answered. -/
theorem everyLineIsAnswered : Obligations.EveryLineIsAnswered := by
  intro s
  cases hp : s.pending with
  | nil => exact ⟨s, step_idle hp, fun _ _ h => absurd h (by simp)⟩
  | cons line rest =>
    obtain ⟨r, hr⟩ := step_eq_next hp
    refine ⟨_, hr, fun line' rest' h => ?_⟩
    obtain ⟨-, rfl⟩ := List.cons.inj h
    exact ⟨answer_pending _ _, r, answer_result _ _⟩

/-- Settles O16: the lines have the same tokens, because a run of whitespace cuts whatever its
characters are, and makes no token of its own at the ends. -/
theorem whitespaceRunsAreEquivalent : Obligations.WhitespaceRunsAreEquivalent := by
  intro s rest a b w w' hw hw'
  refine ⟨fun hne hne' => step_congr_splitWs ?_ s rest, step_congr_splitWs ?_ s rest⟩
  · rw [splitWs_append_ws a w b hne hw, splitWs_append_ws a w' b hne' hw']
  · rw [splitWs_append_trailing _ _ hw', splitWs_ws_append w a hw]

/-- Settles O20: every mnemonic has its row, so the result is that of a branch, and no branch raises
`UnknownMnemonic`; the row of a mnemonic of format R has the branch that reads no immediate. -/
theorem errorKindsOfTheFormats : Obligations.ErrorKindsOfTheFormats := by
  intro i s t hs h
  constructor
  · obtain ⟨d, hd, -⟩ := exists_itab_lookup_key i
    rw [result_of_exec (hs.itab ▸ hd) h, ne_eq, Option.some.injEq, resultOf_eq_err_iff]
    exact encodeOperands_ne_unknownMnemonic _ _ d
  · rintro ⟨ops, hi⟩
    obtain ⟨funct3, funct7, hd⟩ :
        ∃ funct3 funct7, Tables.itab.lookup i.key = some ⟨0b0110011#7, .R funct3 funct7⟩ := by
      fin_cases hi <;> exact ⟨_, _, rfl⟩
    rw [result_of_exec (hs.itab ▸ hd) h, ne_eq, Option.some.injEq, resultOf_eq_err_iff,
      encodeOperands_R]
    exact encodeR_ne_immediateOutOfRange _ _ _ _ _

/-- Settles O2, by the fields of the reset state; without a result no port has a value. -/
theorem resetIsIdleWithTablesBuilt : Obligations.ResetIsIdleWithTablesBuilt :=
  ⟨⟨reset_itab, reset_rtab⟩, reset_pending, ports_of_no_result reset_result⟩

/-- A layout is of the shift shape exactly when it carries funct3 and the shift path's funct7 (R23). -/
theorem shape_eq_shift_iff (l : Layout) :
    l.shape = .shift ↔ ∃ funct3 funct7, l = .shift funct3 funct7 := by
  cases l <;> simp [Layout.shape]

/-- Settles O3, by the 37 rows of ITAB. -/
theorem shiftLayoutExactlyForShiftImmediates : Obligations.ShiftLayoutExactlyForShiftImmediates := by
  have rows : ∀ p ∈ Tables.itab, p.2.layout.shape = .shift ↔
      p.1 = (Instr.slli []).key ∨ p.1 = (Instr.srli []).key ∨ p.1 = (Instr.srai []).key := by decide
  exact fun p hp => (shape_eq_shift_iff p.2.layout).symm.trans (rows p hp)

/-- Settles O7, by the two outcomes of the line decoder. -/
theorem stepRunsInstructionInLine : Obligations.StepRunsInstructionInLine := by
  intro s line rest hp
  exact ⟨fun i hi => by simp only [step, hp, hi], fun e he => step_of_decodeLine_error hp he⟩

/-- Settles O8. -/
theorem idleStepChangesNothing : Obligations.IdleStepChangesNothing := fun _ => step_idle

/-- Settles O14: the tables are as built, and there is no result yet. -/
theorem resetMeetsInvariant : Obligations.ResetMeetsInvariant :=
  ⟨⟨reset_itab, reset_rtab⟩, fun _ h => by simp at h⟩

/-- Settles O29: each word evaluates to its instruction. -/
theorem writtenWordsDecode : Obligations.WrittenWordsDecode := by
  unfold Obligations.WrittenWordsDecode
  refine ⟨?_, ?_, ?_, ?_, ?_, ?_, ?_⟩ <;> decide

end Sys2Proof.Machine
end

section
/-! SUPPORT. The length of a canonical line (R288): a mnemonic has at most 5 characters, and the operand
tokens with a space before each have at most 16. -/

namespace Sys2Proof

open Machine

theorem length_key_le (i : Instr) : i.key.length ≤ 5 := by
  cases i <;> simp [Instr.key, ascii]

theorem length_regName_le (r : RegIndex) : (regName r).length ≤ 3 := by
  have digits := natText_length_le (n := r.toNat) (k := 2) (by decide) (by omega)
  rw [regName, List.length_cons]
  omega

theorem length_regToken_le (r : RegIndex) : (regToken r).length ≤ 4 := by
  have name := length_regName_le r
  rw [regToken, sepToken, List.length_append, List.length_singleton]
  omega

/-- A sign and the digits. -/
theorem length_intText_le {v : Int} {k : Nat} (hk : 0 < k) (h : v.natAbs < 10 ^ k) :
    (intText v).length ≤ k + 1 := by
  have digits := natText_length_le hk h
  unfold intText
  split
  · rw [List.length_cons]; omega
  · omega

/-- The canonical operand tokens, with a space before each (R100). -/
theorem length_tokens_le {shape : Shape} {o : OperandValues} (h : shape.InRange o.imm) :
    ((o.tokens shape).flatMap fun t => space :: t).length ≤ 16 := by
  have hrd := length_regToken_le o.rd
  have hrs1 := length_regToken_le o.rs1
  have hrs2 := length_regToken_le o.rs2
  have himm {k : Nat} := length_intText_le (v := o.imm) (k := k)
  cases shape <;>
    simp only [OperandValues.tokens, storeToken, List.flatMap_cons, List.flatMap_nil,
      List.length_append, List.length_cons, List.length_nil]
  case R =>
    have hname := length_regName_le o.rs2
    omega
  case I | shift | B =>
    obtain ⟨hlo, hhi⟩ := h
    have := himm (k := 4) (by decide) (by omega)
    omega
  case S =>
    obtain ⟨hlo, hhi⟩ := h
    have := himm (k := 4) (by decide) (by omega)
    have hname := length_regName_le o.rs1
    omega
  case U | J =>
    obtain ⟨hlo, hhi⟩ := h
    have := himm (k := 7) (by decide) (by omega)
    omega

/-- Settles O38: a mnemonic and the operand tokens have at most 5 and 16 characters, and `sltiu` with two
registers of two digits and the immediate -2048 has them all. -/
theorem canonicalLinesHaveAtMost21Characters :
    Obligations.CanonicalLinesHaveAtMost21Characters := by
  constructor
  · intro i h
    obtain ⟨r, -, d, hd, o, ho, rfl⟩ := exists_operandValues_of_wellFormed h
    obtain ⟨-, hops⟩ := hd.hasRow (o.tokens r.shape)
    have hkey := length_key_le (r.build (o.tokens r.shape))
    have htokens := length_tokens_le ho
    rw [Instr.line, hops, List.length_append]
    omega
  · exact ⟨.sltiu [regToken 31, regToken 31, intText (-2048)], by decide, by decide⟩

end Sys2Proof
end
